-- ==== Sys2Proof/Word.lean ====
section
/-! DEFINITION. The word types of the block (00_scope.md R5, R6): a byte of the data bus, a 16-bit parameter or pixel word,
the repeat count, the request word, and the level of a line. The widths are the values of R5 here; Machine/Widths.lean has the
block with the widths as arguments, and Laws/Widths.lean proves that the machine is that block at these values (assumption 9). -/

namespace Sys2Proof

/-- A Bus Byte, `BUS_W` = 8 bits (R5, R13). -/
abbrev Byte := BitVec 8

/-- A Pixel Word or a 16-bit parameter, `WORD_W` = 16 bits (R5, R13). -/
abbrev Word16 := BitVec 16

/-- The repeat count of PXRUN, `COUNT_W` = 32 bits (R5, R82). -/
abbrev RepeatCount := BitVec 32

/-- A request word, `RQ_W` = 72 bits (R5, R80). -/
abbrev RequestWord := BitVec 72

/-- The level of one line: 0 is low, 1 is high (R6). -/
inductive Level where
  | low
  | high
deriving DecidableEq, Repr, Inhabited

/-- The other level: `1 - v` (R106). -/
def Level.other : Level → Level
  | .low => .high
  | .high => .low

/-- The level as the spec's digit. -/
def Level.bit : Level → BitVec 1
  | .low => 0
  | .high => 1

end Sys2Proof
end

