-- ==== Sys2Proof/Machine/Operands.lean ====
section
/-! DEFINITION. Every operand form of the block (30_encoding.md R81, R82; 45_common_laws.md R175): the fields of a request word,
the two bytes of a 16-bit value, and the concatenations. All values are unsigned (00_scope.md R6). -/

namespace Sys2Proof

/-- `w[71:64]`, the operation code (R81). -/
def opField (w : RequestWord) : Byte := w.extractLsb' 64 8

/-- `w[63:48]`, the first operand field (R81). -/
def fieldA (w : RequestWord) : Word16 := w.extractLsb' 48 16

/-- `w[47:32]`, the second operand field (R81). -/
def fieldB (w : RequestWord) : Word16 := w.extractLsb' 32 16

/-- `w[31:16]`, the third operand field (R81). -/
def fieldC (w : RequestWord) : Word16 := w.extractLsb' 16 16

/-- `w[15:0]`, the fourth operand field (R81). -/
def fieldD (w : RequestWord) : Word16 := w.extractLsb' 0 16

/-- The request word `{op, a, b, c, d}` (R81, R88). -/
def packWord (op : Byte) (a b c d : Word16) : RequestWord := op ++ a ++ b ++ c ++ d

/-- `v[15:8]`, the high byte (R6, R54). -/
def hiByte (v : Word16) : Byte := v.extractLsb' 8 8

/-- `v[7:0]`, the low byte (R6, R54); an 8-bit operand is this slice of its field (R82). -/
def loByte (v : Word16) : Byte := v.extractLsb' 0 8

/-- `{hi, lo}` (R144). -/
def joinBytes (hi lo : Byte) : Word16 := hi ++ lo

/-- `zext_16(v)` (R6, R125). -/
def zext16 (v : Byte) : Word16 := v.setWidth 16

/-- The repeat count `{b, c}` (R82). -/
def joinCount (b c : Word16) : RepeatCount := b ++ c

/-- The half of the repeat count that stands in field `b`. -/
def hiHalf (n : RepeatCount) : Word16 := n.extractLsb' 16 16

/-- The half of the repeat count that stands in field `c`. -/
def loHalf (n : RepeatCount) : Word16 := n.extractLsb' 0 16

end Sys2Proof
end

