-- ==== Sys2Proof/Syntax.lean ====
section
/-! DEFINITION. The requests of 30_encoding.md R84: the mnemonics, the requests with their operands (one constructor per row of
the opcode table), the pseudo-requests of R89 and the request lines of the assembler syntax R88. -/

namespace Sys2Proof

/-- The mnemonics of R84, in the table's order. -/
inductive Mnemonic where
  | SETPX | SETWIN | RSTFW
  | BEGINPX | PXW | PXRUN
  | BEGINRD | RDPX | ENDRD
  | CMD | DAT2 | DATF
  | WRB | RDB
deriving DecidableEq, Repr

/-- All mnemonics, in the table's order. -/
def Mnemonic.all : List Mnemonic :=
  [.SETPX, .SETWIN, .RSTFW, .BEGINPX, .PXW, .PXRUN, .BEGINRD, .RDPX, .ENDRD, .CMD, .DAT2, .DATF, .WRB, .RDB]

/-- A request with its operands (R82, R84). Every operand value is legal (R82, R185), so the operand's type is its width. -/
inductive Instr where
  /-- `setPixel(x, y)`. -/
  | setpx (x y : Word16)
  /-- `setWindow(x1, y1, x2, y2)`. -/
  | setwin (x1 y1 x2 y2 : Word16)
  /-- `resetToFullWidth()`. -/
  | rstfw
  /-- `beginPixelStream()`. -/
  | beginpx
  /-- `sendPixelWord(color)`. -/
  | pxw (color : Word16)
  /-- The bulk transfer. -/
  | pxrun (color : Word16) (n : RepeatCount)
  /-- `beginReadStream()`. -/
  | beginrd
  /-- `readPixelWord()`. -/
  | rdpx
  /-- `endReadStream()`. -/
  | endrd
  /-- `sendCommand(opcode)` issued as a request. -/
  | cmd (opcode : Byte)
  /-- `sendDataPair(hi, lo)` issued as a request. -/
  | dat2 (hi lo : Byte)
  /-- The fast same-byte transfer issued as a request. -/
  | datf (byte : Byte)
  /-- `writeByte(value)` issued as a request. -/
  | wrb (value : Byte)
  /-- `readByte()` issued as a request. -/
  | rdb
deriving DecidableEq, Repr

/-- The mnemonic of a request (R84). -/
def Instr.mnemonic : Instr → Mnemonic
  | .setpx _ _ => .SETPX
  | .setwin _ _ _ _ => .SETWIN
  | .rstfw => .RSTFW
  | .beginpx => .BEGINPX
  | .pxw _ => .PXW
  | .pxrun _ _ => .PXRUN
  | .beginrd => .BEGINRD
  | .rdpx => .RDPX
  | .endrd => .ENDRD
  | .cmd _ => .CMD
  | .dat2 _ _ => .DAT2
  | .datf _ => .DATF
  | .wrb _ => .WRB
  | .rdb => .RDB

/-- What a request line begins with: a mnemonic of R84 or a pseudo-request of R89. -/
inductive LineHead where
  | request (m : Mnemonic)
  | pixel
  | fill
deriving DecidableEq, Repr

/-- A request line (R88): its head and its operands as the numbers written. -/
structure Line where
  head : LineHead
  operands : List Nat
deriving DecidableEq, Repr

end Sys2Proof
end

