-- ==== Sys2Proof/Decode.lean ====
section
/-! DEFINITION. The decoder and the encoder of request words, over one copy of the opcode map 30_encoding.md R84. A word is
decoded by its operation code alone; unused fields are ignored (R85); a reserved operation code is rejected by name (R86). -/

namespace Sys2Proof

/-- The operation code of each request (R84). -/
def Mnemonic.op : Mnemonic → Byte
  | .SETPX => 0x01
  | .SETWIN => 0x02
  | .RSTFW => 0x03
  | .BEGINPX => 0x10
  | .PXW => 0x11
  | .PXRUN => 0x12
  | .BEGINRD => 0x18
  | .RDPX => 0x19
  | .ENDRD => 0x1A
  | .CMD => 0x40
  | .DAT2 => 0x41
  | .DATF => 0x42
  | .WRB => 0x80
  | .RDB => 0x81

/-- The request an operation code selects (R84), none where it is reserved (R86). -/
def Mnemonic.ofOp (op : Byte) : Option Mnemonic := Mnemonic.all.find? fun m => m.op == op

/-- The bits of a request word the table of R84 names for a request; the others are ignored (R85). -/
def Mnemonic.usedBits : Mnemonic → RequestWord
  | .SETPX => packWord 0xFF 0xFFFF 0xFFFF 0 0
  | .SETWIN => packWord 0xFF 0xFFFF 0xFFFF 0xFFFF 0xFFFF
  | .RSTFW => packWord 0xFF 0 0 0 0
  | .BEGINPX => packWord 0xFF 0 0 0 0
  | .PXW => packWord 0xFF 0xFFFF 0 0 0
  | .PXRUN => packWord 0xFF 0xFFFF 0xFFFF 0xFFFF 0
  | .BEGINRD => packWord 0xFF 0 0 0 0
  | .RDPX => packWord 0xFF 0 0 0 0
  | .ENDRD => packWord 0xFF 0 0 0 0
  | .CMD => packWord 0xFF 0x00FF 0 0 0
  | .DAT2 => packWord 0xFF 0xFFFF 0 0 0
  | .DATF => packWord 0xFF 0x00FF 0 0 0
  | .WRB => packWord 0xFF 0x00FF 0 0 0
  | .RDB => packWord 0xFF 0 0 0 0

/-- The operands of a request, taken from its word (R82, R84). -/
def Mnemonic.operandsOf (w : RequestWord) : Mnemonic → Instr
  | .SETPX => .setpx (fieldA w) (fieldB w)
  | .SETWIN => .setwin (fieldA w) (fieldB w) (fieldC w) (fieldD w)
  | .RSTFW => .rstfw
  | .BEGINPX => .beginpx
  | .PXW => .pxw (fieldA w)
  | .PXRUN => .pxrun (fieldA w) (joinCount (fieldB w) (fieldC w))
  | .BEGINRD => .beginrd
  | .RDPX => .rdpx
  | .ENDRD => .endrd
  | .CMD => .cmd (loByte (fieldA w))
  | .DAT2 => .dat2 (hiByte (fieldA w)) (loByte (fieldA w))
  | .DATF => .datf (loByte (fieldA w))
  | .WRB => .wrb (loByte (fieldA w))
  | .RDB => .rdb

/-- Why a request word is rejected. -/
inductive DecodeError where
  /-- The operation code is reserved (R86). -/
  | reservedOp (op : Byte)
deriving DecidableEq, Repr

/-- The decoder, total on request words (R84, R85, R86). -/
def decode (w : RequestWord) : Except DecodeError Instr :=
  match Mnemonic.ofOp (opField w) with
  | some m => .ok (m.operandsOf w)
  | none => .error (.reservedOp (opField w))

/-- The encoder: the request word of a request, with zeros in the unused fields (R85, R88). -/
def encode (i : Instr) : RequestWord :=
  match i with
  | .setpx x y => packWord i.mnemonic.op x y 0 0
  | .setwin x1 y1 x2 y2 => packWord i.mnemonic.op x1 y1 x2 y2
  | .pxw color => packWord i.mnemonic.op color 0 0 0
  | .pxrun color n => packWord i.mnemonic.op color (hiHalf n) (loHalf n) 0
  | .cmd opcode => packWord i.mnemonic.op (zext16 opcode) 0 0 0
  | .dat2 hi lo => packWord i.mnemonic.op (joinBytes hi lo) 0 0 0
  | .datf byte => packWord i.mnemonic.op (zext16 byte) 0 0 0
  | .wrb value => packWord i.mnemonic.op (zext16 value) 0 0 0
  | .rstfw => packWord i.mnemonic.op 0 0 0 0
  | .beginpx => packWord i.mnemonic.op 0 0 0 0
  | .beginrd => packWord i.mnemonic.op 0 0 0 0
  | .rdpx => packWord i.mnemonic.op 0 0 0 0
  | .endrd => packWord i.mnemonic.op 0 0 0 0
  | .rdb => packWord i.mnemonic.op 0 0 0 0

/-- The request word whose low `nbits` bits are those of `w` and whose other bits are zero. The table numbers the bits of the one
72-bit word as R81 does. -/
def wordOfTable (nbits w : Nat) : RequestWord := BitVec.ofNat 72 (w % 2 ^ nbits)

/-- The instruction the decoder reads from an instruction of the opcode table; a word longer than a request is none. -/
def decodeTableWord (nbits w : Nat) : Option Instr :=
  if 72 < nbits then none
  else
    match decode (wordOfTable nbits w) with
    | .ok i => some i
    | .error _ => none

end Sys2Proof
end

