-- ==== Sys2Proof/Config.lean ====
section
/-! DEFINITION. The implementation parameters of 00_scope.md R5 and the model's free values. Every operation of the model takes
the parameters as an argument; `Config.params` is the set the machine runs with. The parameters the spec leaves OPEN are
constants without a body (assumption 7); the parameters with a value in R5 have that value there (assumption 8). -/

namespace Sys2Proof

/-- The parameters of R5 that are not widths, where the widths are those of R5. Configuration, not state (R34). -/
structure Params where
  /-- `XMAX`, the full-panel upper column bound. -/
  xmax : Word16
  /-- `YMAX`, the full-panel upper row bound. -/
  ymax : Word16
  /-- `OP_CASET`, the command that sets the column range. -/
  opCaset : Byte
  /-- `OP_PASET`, the command that sets the row range. -/
  opPaset : Byte
  /-- `OP_RAMWR`, the pixel-write-start command. -/
  opRamwr : Byte
  /-- `OP_RAMRD`, the read-start command. -/
  opRamrd : Byte
  /-- `T_RD_SETTLE`, the mandatory read settle delay, positive. -/
  tRdSettle : Nat
  /-- `T_WR_PULSE`, the optional write pulse delay; 0 means that no delay event is emitted. -/
  tWrPulse : Nat
  /-- `CD_CMD_LEVEL`, the level of CD that means command. -/
  cdCmdLevel : Level
deriving DecidableEq, Repr

/-- All thirteen parameters of R5. That `XMAX` and `YMAX` fit in `WORD_W` bits, and that the four commands are `BUS_W`-bit values, is
their type. The block with these as its argument is Machine/Widths.lean. -/
structure Parameters where
  /-- `BUS_W`, the width of the data bus and of a Bus Byte. -/
  busW : Nat
  /-- `WORD_W`, the width of a Pixel Word and of a parameter. -/
  wordW : Nat
  /-- `COUNT_W`, the width of the repeat count of the bulk transfer. -/
  countW : Nat
  /-- `RQ_W`, the width of a request word. -/
  rqW : Nat
  xmax : BitVec wordW
  ymax : BitVec wordW
  opCaset : BitVec busW
  opPaset : BitVec busW
  opRamwr : BitVec busW
  opRamrd : BitVec busW
  tRdSettle : Nat
  tWrPulse : Nat
  cdCmdLevel : Level

/-- A set of parameters with the widths R5 gives: 8, 16, 32 and 72 bits. -/
abbrev Params.withWidths (p : Params) : Parameters where
  busW := 8
  wordW := 16
  countW := 32
  rqW := 72
  xmax := p.xmax
  ymax := p.ymax
  opCaset := p.opCaset
  opPaset := p.opPaset
  opRamwr := p.opRamwr
  opRamrd := p.opRamrd
  tRdSettle := p.tRdSettle
  tWrPulse := p.tWrPulse
  cdCmdLevel := p.cdCmdLevel

/-- The level of CD that means data (R106). -/
def Params.dataLevel (p : Params) : Level := p.cdCmdLevel.other

/-- The reference values of R5, used by every example and test vector of the spec. The four opcodes and the settle delay are
suggestions only, so the machine does not run with this set; the tests do. -/
def Params.reference : Params where
  xmax := 239
  ymax := 319
  opCaset := 0x2A
  opPaset := 0x2B
  opRamwr := 0x2C
  opRamrd := 0x2E
  tRdSettle := 7
  tWrPulse := 0
  cdCmdLevel := .low

/-- `OP_CASET`, OPEN (R5, D11). -/
opaque Config.opCaset : Byte

/-- `OP_PASET`, OPEN (R5, D11). -/
opaque Config.opPaset : Byte

/-- `OP_RAMWR`, OPEN (R5, D11). -/
opaque Config.opRamwr : Byte

/-- `OP_RAMRD`, OPEN (R5, D11). -/
opaque Config.opRamrd : Byte

/-- `T_RD_SETTLE` less one; any natural number. -/
opaque Config.tRdSettleLessOne : Nat

/-- `T_RD_SETTLE`, OPEN and positive (R5, D10). -/
def Config.tRdSettle : Nat := Config.tRdSettleLessOne + 1

/-- The free bytes: what the environment answers to a `Sample` event that no listed answer covers (R58, U4), and what `dbus`
holds after a reset input (U5). Nothing is known of it; the machine applies it to a fresh number each time (assumption 6). -/
opaque Config.freeByte : Nat → Byte

/-- The parameters the machine runs with. -/
def Config.params : Params where
  xmax := 239
  ymax := 319
  opCaset := Config.opCaset
  opPaset := Config.opPaset
  opRamwr := Config.opRamwr
  opRamrd := Config.opRamrd
  tRdSettle := Config.tRdSettle
  tWrPulse := 0
  cdCmdLevel := .low

end Sys2Proof
end

