-- ==== Sys2Proof/Machine/State.lean ====
section
/-! DEFINITION. The state of the block (10_state.md R24 to R28), the events it emits (00_scope.md R7), the inputs that reach it
(R17), the ways a step can stop (60_exceptions.md R182, R183), and the state after reset (R35). -/

namespace Sys2Proof.Machine

/-- The five control lines (R7, R24). -/
inductive LineName where
  | cs | cd | wr | rd | rst
deriving DecidableEq, Repr

/-- The Control Line Set: the level last driven on each line (R24). -/
structure Lines where
  cs : Level
  cd : Level
  wr : Level
  rd : Level
  rst : Level
deriving DecidableEq, Repr

/-- The full idle pattern: all five lines at 1 (R102). -/
def Lines.fullIdle : Lines := ⟨.high, .high, .high, .high, .high⟩

/-- The lines with one of them at a new level. -/
def Lines.set (l : LineName) (v : Level) (ls : Lines) : Lines :=
  match l with
  | .cs => { ls with cs := v }
  | .cd => { ls with cd := v }
  | .wr => { ls with wr := v }
  | .rd => { ls with rd := v }
  | .rst => { ls with rst := v }

/-- The Bus Direction (R26). -/
inductive Dir where
  | write
  | read
deriving DecidableEq, Repr

/-- The streaming state (R27). -/
inductive Mode where
  | idle
  | pixelWrite
  | pixelRead
deriving DecidableEq, Repr

/-- The shadow belief about the controller's lower-right window bound (R28). -/
inductive Win where
  | unknown
  | defaultLR
  | customLR (x2 y2 : Word16)
deriving DecidableEq, Repr

/-- One call of a downstream primitive (R7). -/
inductive Event where
  /-- `setControlLine(name, level)`. -/
  | line (l : LineName) (v : Level)
  /-- `driveDataBus(byte)`. -/
  | drive (b : Byte)
  /-- `sampleDataBus()`, with the byte the environment answered. -/
  | sample (v : Byte)
  /-- `configureBusDirection(write|read)`. -/
  | dir (m : Dir)
  /-- `delayCycles(n)`. -/
  | delay (n : Nat)
deriving DecidableEq, Repr

/-- What can reach the block between two requests (R17): a request word at the request port (R80), or the reset input (R200). -/
inductive Input where
  | request (w : RequestWord)
  | reset
deriving DecidableEq, Repr

/-- The state of the block, with its inputs and the observation of the run. -/
structure State where
  /-- The Control Line Set (R24). -/
  lines : Lines
  /-- The byte last driven on the data bus (R25). -/
  dbus : Byte
  /-- The Bus Direction (R26). -/
  dir : Dir
  /-- The streaming state (R27). -/
  mode : Mode
  /-- The shadow window state (R28). -/
  win : Win
  /-- The requests and resets still to come, oldest first (R16, R17; assumption 2). -/
  inputs : List Input
  /-- The environment's answers to the next `Sample` events, in order (R10, R58; assumption 6). -/
  answers : List Byte
  /-- How many free bytes have been used; the model's own counter (assumption 6). -/
  draws : Nat
  /-- The trace of the run (R7, R16; assumption 1). -/
  trace : List Event
  /-- The responses of the run (R16, R83; assumption 1). -/
  responses : List Word16
deriving DecidableEq, Repr

/-- The faults of the model. -/
inductive Fault where
  /-- `ContractViolation(request, dir)` (R182, R184): a request that does not fit the Bus Direction. Raised by the contract check,
  the first line of every request, before any event and any write. Safe: the source leaves the behaviour undefined and promises
  nothing, so no claim about such a run can be proved. -/
  | contractViolation (request : Mnemonic) (dir : Dir)
deriving DecidableEq, Repr

/-- The refusals of the model. -/
inductive Refusal where
  /-- An instruction without a meaning; no arm of `exec` raises it, since every request has its meaning. Safe: the machine
  stops. -/
  | notModelled (mnemonic : String)
  /-- `IllegalRequest(op)` (R183, R184): the operation code of the request word is reserved. Raised by `step` before anything
  else. Safe: the hardware ignores the word (R86) and the model stops instead, as R86 tells a model to do. -/
  | illegalRequest (op : Byte)
deriving DecidableEq, Repr

/-- The state after reset and before the first request (R35). The spec leaves `dbus` unspecified; the model names 0
(assumption 5). -/
def State.reset : State where
  lines := Lines.fullIdle
  dbus := 0
  dir := .write
  mode := .idle
  win := .unknown
  inputs := []
  answers := []
  draws := 0
  trace := []
  responses := []

end Sys2Proof.Machine
end

