-- ==== Sys2Proof/Machine/Ops.lean ====
section
/-! DEFINITION. The shared operations of the block, in the spec's order: the five primitives and the sampled byte, layer 1 the
line controller (40_line_controller.md), layer 2 the byte transfers (41_byte_transfer.md), layer 3 the command and data
transactions (42_transaction.md), layer 4 the window transactions (43_window.md), and the reset of the block
(70_reset_and_hazards.md R200). Each takes the parameters it depends on. The block has no exception entry or return (60_exceptions.md
R187, R188). -/

namespace Sys2Proof.Machine

/-! ## Primitives (00_scope.md R7, R9) -/

/-- `emit e` (R9). -/
def emit (e : Event) (s : State) : State := { s with trace := s.trace ++ [e] }

/-- `set(l, v)`: the level is written and the event emitted, also when the line already has that level (R9, R101). -/
def setLine (l : LineName) (v : Level) (s : State) : State :=
  emit (.line l v) { s with lines := s.lines.set l v }

/-- `dbus <- b; emit Drive(b)` (R120, R132). -/
def driveBus (b : Byte) (s : State) : State := emit (.drive b) { s with dbus := b }

/-- `dir <- m; emit Dir(m)` (R142, R145). -/
def turnBus (m : Dir) (s : State) : State := emit (.dir m) { s with dir := m }

/-- `emit Delay(n)` (R121). -/
def wait (n : Nat) (s : State) : State := emit (.delay n) s

/-- The next byte of the environment: the next listed answer, or a fresh free byte where none is listed (R10, R58). -/
def draw (s : State) : Byte × State :=
  match s.answers with
  | v :: rest => (v, { s with answers := rest })
  | [] => (Config.freeByte s.draws, { s with draws := s.draws + 1 })

/-- `sample()`: emits `Sample(v)` and yields `v` (R9, R58). -/
def sample (s : State) : Byte × State :=
  ((draw s).1, emit (.sample (draw s).1) (draw s).2)

/-- `return v`: the response of a request, after its last event (R60 (d), R83). -/
def respond (v : Word16) (s : State) : State := { s with responses := s.responses ++ [v] }

/-- `mode <- m`. -/
def setMode (m : Mode) (s : State) : State := { s with mode := m }

/-- `win <- w`. -/
def setWin (w : Win) (s : State) : State := { s with win := w }

/-! ## Layer 1, the line controller -/

/-- `csAssert` (R103). -/
def csAssert (s : State) : State := setLine .cs .low s

/-- `csRelease` (R104). -/
def csRelease (s : State) : State := setLine .cs .high s

/-- `enterCommand` (R105). -/
def enterCommand (p : Params) (s : State) : State := setLine .cd p.cdCmdLevel s

/-- `enterData` (R106). -/
def enterData (p : Params) (s : State) : State := setLine .cd p.dataLevel s

/-- `enterRead` (R107). -/
def enterRead (p : Params) (s : State) : State := setLine .cd p.dataLevel s

/-- The optional write pulse delay: no event when `T_WR_PULSE` is 0 (R109). -/
def pulseDelay (p : Params) (s : State) : State := if 0 < p.tWrPulse then wait p.tWrPulse s else s

/-- `wrStrobe` (R109). -/
def wrStrobe (p : Params) (s : State) : State := setLine .wr .high (pulseDelay p (setLine .wr .low s))

/-- `rdAssert` (R110). -/
def rdAssert (s : State) : State := setLine .rd .low s

/-- `rdRelease` (R110). -/
def rdRelease (s : State) : State := setLine .rd .high s

/-- `idleAll`: all five lines to 1, without an event; performed by reset only (R111). -/
def idleAll (s : State) : State := { s with lines := Lines.fullIdle }

/-- Burst framing: `csAssert; body; csRelease` (R108). -/
def burst (body : State → State) (s : State) : State := csRelease (body (csAssert s))

/-! ## Layer 2, the byte transfers -/

/-- `writeByte(value)` (R120). -/
def writeByte (p : Params) (value : Byte) (s : State) : State := wrStrobe p (driveBus value s)

/-- `readByte() -> value` (R121). -/
def readByte (p : Params) (s : State) : Byte × State :=
  let r := sample (wait p.tRdSettle (rdAssert s))
  (r.1, rdRelease r.2)

/-! ## Layer 3, commands and data -/

/-- `sendCommand(opcode)` (R130). -/
def sendCommand (p : Params) (opcode : Byte) (s : State) : State :=
  enterData p (writeByte p opcode (enterCommand p s))

/-- `sendDataPair(hi, lo)` (R131). -/
def sendDataPair (p : Params) (hi lo : Byte) (s : State) : State :=
  writeByte p lo (writeByte p hi (enterData p s))

/-- `sendDataFast(byte)`: one `Drive`, two strobes (R132). -/
def sendDataFast (p : Params) (byte : Byte) (s : State) : State :=
  wrStrobe p (wrStrobe p (driveBus byte (enterData p s)))

/-- `sendParam16(v)`: high byte first (R133). -/
def sendParam16 (p : Params) (v : Word16) (s : State) : State := sendDataPair p (hiByte v) (loByte v) s

/-- `repeat n times { body }` (R9). -/
def repeatTimes (body : State → State) : Nat → State → State
  | 0, s => s
  | n + 1, s => repeatTimes body n (body s)

/-! ## Layer 4, the window transactions -/

/-- `colStart(x)` (R161). -/
def colStart (p : Params) (x : Word16) (s : State) : State := sendParam16 p x (sendCommand p p.opCaset s)

/-- `colRange(x1, x2)` (R161). -/
def colRange (p : Params) (x1 x2 : Word16) (s : State) : State :=
  sendParam16 p x2 (sendParam16 p x1 (sendCommand p p.opCaset s))

/-- `rowStart(y)` (R161). -/
def rowStart (p : Params) (y : Word16) (s : State) : State := sendParam16 p y (sendCommand p p.opPaset s)

/-- `rowRange(y1, y2)` (R161). -/
def rowRange (p : Params) (y1 y2 : Word16) (s : State) : State :=
  sendParam16 p y2 (sendParam16 p y1 (sendCommand p p.opPaset s))

/-- `lrReset`, the full lower-right-reset sequence (R163). -/
def lrReset (p : Params) (s : State) : State := rowRange p 0 p.ymax (colRange p 0 p.xmax s)

/-! ## The reset of the block -/

/-- The reset input (R200): every element as R35 says, no event, and a new run, whose trace starts empty (R16, R35). `dbus` is
unspecified: a fresh free byte (U5). The inputs still to come, the environment's answers and the counter of free bytes are not
the block's and stay (assumption 4). -/
def resetBlock (s : State) : State :=
  idleAll { s with
    dbus := Config.freeByte s.draws
    dir := .write
    mode := .idle
    win := .unknown
    draws := s.draws + 1
    trace := []
    responses := [] }

end Sys2Proof.Machine
end

