-- ==== Sys2Proof/Machine/Flags.lean ====
section
/-! DEFINITION. The block has no flags (10_state.md R22). This file holds what stands in their place: the only data-dependent
choices of the block that R22 lists, the contract check on `dir`, the test of `mode` after a data write, and the test of
`win` in SETPX. (The fourth, the loop of PXRUN, is `repeatTimes`.) -/

namespace Sys2Proof.Machine

/-- The contract check, the first line of every request rule (R182): the request runs when `dir` is what it needs, and is a
contract violation otherwise, with no event and no state written. -/
def contract (request : Mnemonic) (needs : Dir) (s : State) (run : State → State) :
    Host.Outcome State Fault Refusal :=
  if s.dir = needs then .next (run s) else .fault (.contractViolation request s.dir)

/-- Data written outside a pixel stream loses the window belief (R137). -/
def downgradeIfIdle (s : State) : State := if s.mode = .idle then setWin .unknown s else s

/-- SETPX's test of the belief: `lrReset` unless the lower-right bound is known to be the default (R164). -/
def lrResetIfNeeded (p : Params) (s : State) : State := if s.win = .defaultLR then s else lrReset p s

end Sys2Proof.Machine
end

