-- ==== Sys2Proof/Machine/ByteTransfer.lean ====
section
/-! DEFINITION. The requests of layer 2 (41_byte_transfer.md section 2): WRB and RDB. `req…` is the request rule with the
parameters as an argument, `exec…` the meaning with the machine's parameters. -/

namespace Sys2Proof.Machine

/-- WRB `value` (R124): CD is not driven. -/
def reqWrb (p : Params) (value : Byte) (s : State) : Host.Outcome State Fault Refusal :=
  contract .WRB .write s fun s => downgradeIfIdle (burst (writeByte p value) s)

/-- RDB (R125). -/
def reqRdb (p : Params) (s : State) : Host.Outcome State Fault Refusal :=
  contract .RDB .read s fun s =>
    let r := readByte p (csAssert s)
    respond (zext16 r.1) (csRelease r.2)

/-- The meaning of WRB (R124). -/
def execWrb (value : Byte) (s : State) : Host.Outcome State Fault Refusal := reqWrb Config.params value s

/-- The meaning of RDB (R125). -/
def execRdb (s : State) : Host.Outcome State Fault Refusal := reqRdb Config.params s

end Sys2Proof.Machine
end

