-- ==== Sys2Proof/Machine/Transaction.lean ====
section
/-! DEFINITION. The requests of layer 3 (42_transaction.md sections 2 to 4): the raw requests CMD, DAT2 and DATF, the pixel-write
stream BEGINPX, PXW and PXRUN, and the pixel-read stream BEGINRD, RDPX and ENDRD. `req…` is the request rule with the
parameters as an argument, `exec…` the meaning with the machine's parameters. -/

namespace Sys2Proof.Machine

/-! ## Raw requests -/

/-- DAT2 `hi, lo` (R134). -/
def reqDat2 (p : Params) (hi lo : Byte) (s : State) : Host.Outcome State Fault Refusal :=
  contract .DAT2 .write s fun s => downgradeIfIdle (burst (sendDataPair p hi lo) s)

/-- DATF `byte` (R135). -/
def reqDatf (p : Params) (byte : Byte) (s : State) : Host.Outcome State Fault Refusal :=
  contract .DATF .write s fun s => downgradeIfIdle (burst (sendDataFast p byte) s)

/-- CMD `opcode` (R136): an unmodelled write, so the belief is lost, whatever the opcode. -/
def reqCmd (p : Params) (opcode : Byte) (s : State) : Host.Outcome State Fault Refusal :=
  contract .CMD .write s fun s => setWin .unknown (setMode .idle (burst (sendCommand p opcode) s))

/-! ## Pixel-write stream -/

/-- BEGINPX (R138). -/
def reqBeginpx (p : Params) (s : State) : Host.Outcome State Fault Refusal :=
  contract .BEGINPX .write s fun s => setMode .pixelWrite (burst (sendCommand p p.opRamwr) s)

/-- PXW `color` (R139). -/
def reqPxw (p : Params) (color : Word16) (s : State) : Host.Outcome State Fault Refusal :=
  contract .PXW .write s fun s => downgradeIfIdle (burst (sendDataPair p (hiByte color) (loByte color)) s)

/-- PXRUN `color, n` (R141): one burst; a count of 0 leaves the belief alone. -/
def reqPxrun (p : Params) (color : Word16) (n : RepeatCount) (s : State) : Host.Outcome State Fault Refusal :=
  contract .PXRUN .write s fun s =>
    let t := burst (repeatTimes (sendDataPair p (hiByte color) (loByte color)) n.toNat) s
    if 0 < n.toNat then downgradeIfIdle t else t

/-! ## Pixel-read stream -/

/-- BEGINRD (R142, R143): the dummy byte is discarded. -/
def reqBeginrd (p : Params) (s : State) : Host.Outcome State Fault Refusal :=
  contract .BEGINRD .write s fun s =>
    let armed := enterRead p (turnBus .read (sendCommand p p.opRamrd (csAssert s)))
    let dummy := readByte p (wait p.tRdSettle armed)
    setMode .pixelRead (csRelease dummy.2)

/-- RDPX (R144): the first byte read is the high byte. -/
def reqRdpx (p : Params) (s : State) : Host.Outcome State Fault Refusal :=
  contract .RDPX .read s fun s =>
    let hi := readByte p (enterRead p (csAssert s))
    let lo := readByte p hi.2
    respond (joinBytes hi.1 lo.1) (csRelease lo.2)

/-- ENDRD (R145). It depends on no parameter. -/
def reqEndrd (s : State) : Host.Outcome State Fault Refusal :=
  contract .ENDRD .read s fun s => setMode .idle (burst (turnBus .write) s)

/-! ## The meanings -/

/-- The meaning of DAT2 (R134). -/
def execDat2 (hi lo : Byte) (s : State) : Host.Outcome State Fault Refusal := reqDat2 Config.params hi lo s

/-- The meaning of DATF (R135). -/
def execDatf (byte : Byte) (s : State) : Host.Outcome State Fault Refusal := reqDatf Config.params byte s

/-- The meaning of CMD (R136). -/
def execCmd (opcode : Byte) (s : State) : Host.Outcome State Fault Refusal := reqCmd Config.params opcode s

/-- The meaning of BEGINPX (R138). -/
def execBeginpx (s : State) : Host.Outcome State Fault Refusal := reqBeginpx Config.params s

/-- The meaning of PXW (R139). -/
def execPxw (color : Word16) (s : State) : Host.Outcome State Fault Refusal := reqPxw Config.params color s

/-- The meaning of PXRUN (R141). -/
def execPxrun (color : Word16) (n : RepeatCount) (s : State) : Host.Outcome State Fault Refusal :=
  reqPxrun Config.params color n s

/-- The meaning of BEGINRD (R142). -/
def execBeginrd (s : State) : Host.Outcome State Fault Refusal := reqBeginrd Config.params s

/-- The meaning of RDPX (R144). -/
def execRdpx (s : State) : Host.Outcome State Fault Refusal := reqRdpx Config.params s

/-- The meaning of ENDRD (R145). -/
def execEndrd (s : State) : Host.Outcome State Fault Refusal := reqEndrd s

end Sys2Proof.Machine
end

