-- ==== Sys2Proof/Machine/Window.lean ====
section
/-! DEFINITION. The requests of layer 4, the addressing-window state machine (43_window.md section 3): SETPX, SETWIN and RSTFW.
`req…` is the request rule with the parameters as an argument, `exec…` the meaning with the machine's parameters. -/

namespace Sys2Proof.Machine

/-- SETPX `x, y` (R164). -/
def reqSetpx (p : Params) (x y : Word16) (s : State) : Host.Outcome State Fault Refusal :=
  contract .SETPX .write s fun s =>
    setMode .idle (setWin .defaultLR
      (burst (fun s => rowStart p y (colStart p x (lrResetIfNeeded p s))) s))

/-- SETWIN `x1, y1, x2, y2` (R166): `y2` is recorded and not sent. -/
def reqSetwin (p : Params) (x1 y1 x2 y2 : Word16) (s : State) : Host.Outcome State Fault Refusal :=
  contract .SETWIN .write s fun s =>
    setMode .idle (setWin (.customLR x2 y2)
      (burst (fun s => rowStart p y1 (colRange p x1 x2 s)) s))

/-- RSTFW (R168): it never consults `win` and never sends the end row. -/
def reqRstfw (p : Params) (s : State) : Host.Outcome State Fault Refusal :=
  contract .RSTFW .write s fun s =>
    setMode .idle (setWin .defaultLR
      (burst (fun s => rowStart p 0 (colRange p 0 p.xmax s)) s))

/-- The meaning of SETPX (R164). -/
def execSetpx (x y : Word16) (s : State) : Host.Outcome State Fault Refusal := reqSetpx Config.params x y s

/-- The meaning of SETWIN (R166). -/
def execSetwin (x1 y1 x2 y2 : Word16) (s : State) : Host.Outcome State Fault Refusal :=
  reqSetwin Config.params x1 y1 x2 y2 s

/-- The meaning of RSTFW (R168). -/
def execRstfw (s : State) : Host.Outcome State Fault Refusal := reqRstfw Config.params s

end Sys2Proof.Machine
end

