-- ==== Sys2Proof/Machine/Dispatch.lean ====
section
/-! DEFINITION. One arm per request of the opcode table (30_encoding.md R84), each one call of its meaning. -/

namespace Sys2Proof.Machine

def exec (i : Instr) (s : State) : Host.Outcome State Fault Refusal :=
  match i with
  | .setpx x y => Sys2Proof.Machine.execSetpx x y s
  | .setwin x1 y1 x2 y2 => Sys2Proof.Machine.execSetwin x1 y1 x2 y2 s
  | .rstfw => Sys2Proof.Machine.execRstfw s
  | .beginpx => Sys2Proof.Machine.execBeginpx s
  | .pxw color => Sys2Proof.Machine.execPxw color s
  | .pxrun color n => Sys2Proof.Machine.execPxrun color n s
  | .beginrd => Sys2Proof.Machine.execBeginrd s
  | .rdpx => Sys2Proof.Machine.execRdpx s
  | .endrd => Sys2Proof.Machine.execEndrd s
  | .cmd opcode => Sys2Proof.Machine.execCmd opcode s
  | .dat2 hi lo => Sys2Proof.Machine.execDat2 hi lo s
  | .datf byte => Sys2Proof.Machine.execDatf byte s
  | .wrb value => Sys2Proof.Machine.execWrb value s
  | .rdb => Sys2Proof.Machine.execRdb s

end Sys2Proof.Machine
end

