-- ==== Sys2Proof/Machine/Fetch.lean ====
section
/-! DEFINITION. What the block does with one input (00_scope.md R10, R16, R17): with none, with a reset, with a request word.
Decoding comes before the contract check (60_exceptions.md R185). -/

namespace Sys2Proof.Machine

/-- Nothing is waiting at the request port: the block idles with all its state kept (R16; assumption 3). -/
def portIdle (s : State) : Host.Outcome State Fault Refusal := .next s

/-- One input is carried out on a state from which it has been taken: a reset resets the block (R200); a request word is decoded,
refused if its operation code is reserved (R183), and executed otherwise (R10). -/
def serve (i : Input) (s : State) : Host.Outcome State Fault Refusal :=
  match i with
  | .reset => .next (resetBlock s)
  | .request w =>
    match decode w with
    | .ok i => exec i s
    | .error (.reservedOp op) => .refused (.illegalRequest op)

end Sys2Proof.Machine
end

