-- ==== Sys2Proof/Machine/Step.lean ====
section
/-! DEFINITION. One step of the machine: the oldest waiting input is taken and carried out (00_scope.md R10, R16, R17). -/

namespace Sys2Proof.Machine

/-- One step (R10, R80). A fault or a refusal ends the run (assumption 15). -/
def step (s : State) : Host.Outcome State Fault Refusal :=
  match s.inputs with
  | [] => portIdle s
  | i :: rest => serve i { s with inputs := rest }

/-- The state with one more request word in front of the request port, so that the next step takes it (assumption 2). -/
def State.withFetchWord (s : State) (nbits w : Nat) : State :=
  { s with inputs := .request (wordOfTable nbits w) :: s.inputs }

end Sys2Proof.Machine
end

