-- ==== Sys2Proof/WellFormed.lean ====
section
/-! DEFINITION. The checks of well-formedness. A request needs none: its operands' types are their widths and "every 16-bit value
is legal" (30_encoding.md R82). What can be ill-formed is a set of parameters (00_scope.md R5) and a request line of the
assembler (R88), whose operands are numbers of any size and count. -/

namespace Sys2Proof

/-- The parameters are well formed: the settle delay is positive (R5). `XMAX`, `YMAX` and the opcodes fit by their types. -/
def Params.wellFormed (p : Params) : Bool := 0 < p.tRdSettle

/-- The widths of the operands a line names, in the order of R84's table; PIXEL and FILL are R89. -/
def LineHead.operandWidths : LineHead → List Nat
  | .request .SETPX => [16, 16]
  | .request .SETWIN => [16, 16, 16, 16]
  | .request .RSTFW => []
  | .request .BEGINPX => []
  | .request .PXW => [16]
  | .request .PXRUN => [16, 32]
  | .request .BEGINRD => []
  | .request .RDPX => []
  | .request .ENDRD => []
  | .request .CMD => [8]
  | .request .DAT2 => [8, 8]
  | .request .DATF => [8]
  | .request .WRB => [8]
  | .request .RDB => []
  | .pixel => [16, 16, 16]
  | .fill => [16, 16, 16, 16, 16, 32]

/-- As many numbers as widths, each within its width. -/
def operandsFit : List Nat → List Nat → Bool
  | [], [] => true
  | w :: ws, n :: ns => n < 2 ^ w && operandsFit ws ns
  | [], _ :: _ => false
  | _ :: _, [] => false

/-- A request line is well formed: it gives exactly the operands its head names, each of them in range (R84, R88). The spec does not
say what a line means whose number does not fit its operand; that such a line is ill formed, and stands for no request, is the
model's choice (DESIGN CHOICE, assumption 22). -/
def Line.wellFormed (l : Line) : Bool := operandsFit l.head.operandWidths l.operands

end Sys2Proof
end

