-- ==== Sys2Proof/Machine/Assembler.lean ====
section
/-! DEFINITION. The assembler syntax of 30_encoding.md R88 and the pseudo-requests of R89: from the characters of a line to the
requests and the request words it stands for. The spec does not say how white space separates the parts; this reading takes
blanks and tabs as separators and ignores them around an operand (assumption 12). A line whose number does not fit its operand stands for no request (assumption
22). -/

namespace Sys2Proof

/-- The requests a line stands for: one request, or the expansion of PIXEL or FILL (R89); none if the line is ill formed. -/
def Line.requests (l : Line) : Option (List Instr) :=
  if l.wellFormed then
    match l.head, l.operands with
    | .request .SETPX, [x, y] => some [.setpx (.ofNat 16 x) (.ofNat 16 y)]
    | .request .SETWIN, [x1, y1, x2, y2] =>
      some [.setwin (.ofNat 16 x1) (.ofNat 16 y1) (.ofNat 16 x2) (.ofNat 16 y2)]
    | .request .RSTFW, [] => some [.rstfw]
    | .request .BEGINPX, [] => some [.beginpx]
    | .request .PXW, [color] => some [.pxw (.ofNat 16 color)]
    | .request .PXRUN, [color, n] => some [.pxrun (.ofNat 16 color) (.ofNat 32 n)]
    | .request .BEGINRD, [] => some [.beginrd]
    | .request .RDPX, [] => some [.rdpx]
    | .request .ENDRD, [] => some [.endrd]
    | .request .CMD, [opcode] => some [.cmd (.ofNat 8 opcode)]
    | .request .DAT2, [hi, lo] => some [.dat2 (.ofNat 8 hi) (.ofNat 8 lo)]
    | .request .DATF, [byte] => some [.datf (.ofNat 8 byte)]
    | .request .WRB, [value] => some [.wrb (.ofNat 8 value)]
    | .request .RDB, [] => some [.rdb]
    | .pixel, [x, y, color] =>
      some [.setpx (.ofNat 16 x) (.ofNat 16 y), .beginpx, .pxw (.ofNat 16 color)]
    | .fill, [x1, y1, x2, y2, color, n] =>
      some [.setwin (.ofNat 16 x1) (.ofNat 16 y1) (.ofNat 16 x2) (.ofNat 16 y2), .beginpx,
        .pxrun (.ofNat 16 color) (.ofNat 32 n)]
    | _, _ => none
  else none

/-- The line of a request: its mnemonic and its operands in the table's order (R88). -/
def Instr.line (i : Instr) : Line where
  head := .request i.mnemonic
  operands :=
    match i with
    | .setpx x y => [x.toNat, y.toNat]
    | .setwin x1 y1 x2 y2 => [x1.toNat, y1.toNat, x2.toNat, y2.toNat]
    | .pxw color => [color.toNat]
    | .pxrun color n => [color.toNat, n.toNat]
    | .cmd opcode => [opcode.toNat]
    | .dat2 hi lo => [hi.toNat, lo.toNat]
    | .datf byte => [byte.toNat]
    | .wrb value => [value.toNat]
    | .rstfw => []
    | .beginpx => []
    | .beginrd => []
    | .rdpx => []
    | .endrd => []
    | .rdb => []

/-- The spelling of a mnemonic, in capitals (R88). -/
def Mnemonic.spelling : Mnemonic → List Char
  | .SETPX => ['S', 'E', 'T', 'P', 'X']
  | .SETWIN => ['S', 'E', 'T', 'W', 'I', 'N']
  | .RSTFW => ['R', 'S', 'T', 'F', 'W']
  | .BEGINPX => ['B', 'E', 'G', 'I', 'N', 'P', 'X']
  | .PXW => ['P', 'X', 'W']
  | .PXRUN => ['P', 'X', 'R', 'U', 'N']
  | .BEGINRD => ['B', 'E', 'G', 'I', 'N', 'R', 'D']
  | .RDPX => ['R', 'D', 'P', 'X']
  | .ENDRD => ['E', 'N', 'D', 'R', 'D']
  | .CMD => ['C', 'M', 'D']
  | .DAT2 => ['D', 'A', 'T', '2']
  | .DATF => ['D', 'A', 'T', 'F']
  | .WRB => ['W', 'R', 'B']
  | .RDB => ['R', 'D', 'B']

/-- The heads a line may begin with (R88, R89). -/
def LineHead.all : List (List Char × LineHead) :=
  Mnemonic.all.map (fun m => (m.spelling, .request m))
    ++ [(['P', 'I', 'X', 'E', 'L'], .pixel), (['F', 'I', 'L', 'L'], .fill)]

/-- A blank or a tab. -/
def isBlank (c : Char) : Bool := c == ' ' || c == '\t'

/-- The characters without the blanks around them. -/
def trimBlanks (cs : List Char) : List Char :=
  ((cs.dropWhile isBlank).reverse.dropWhile isBlank).reverse

/-- The value of a digit in a base, if it is one. -/
def digitValue (base : Nat) (c : Char) : Option Nat :=
  let n := c.toNat
  let v :=
    if 48 ≤ n ∧ n ≤ 57 then some (n - 48)
    else if 65 ≤ n ∧ n ≤ 70 then some (n - 55)
    else if 97 ≤ n ∧ n ≤ 102 then some (n - 87)
    else none
  v.filter (· < base)

/-- A number in a base, read on from a value. -/
def readDigits (base : Nat) : Nat → List Char → Option Nat
  | acc, [] => some acc
  | acc, c :: cs =>
    match digitValue base c with
    | some d => readDigits base (acc * base + d) cs
    | none => none

/-- A number: decimal, or `0x` hexadecimal (R6, R88). -/
def readNumber : List Char → Option Nat
  | [] => none
  | '0' :: 'x' :: [] => none
  | '0' :: 'x' :: cs => readDigits 16 0 cs
  | cs => readDigits 10 0 cs

/-- The parts of a text between commas; `cur` is the part being read, reversed. -/
def splitCommas (cur : List Char) : List Char → List (List Char)
  | [] => [cur.reverse]
  | c :: cs => if c == ',' then cur.reverse :: splitCommas [] cs else splitCommas (c :: cur) cs

/-- The operands of a line: numbers separated by commas, or nothing. -/
def readOperands (cs : List Char) : Option (List Nat) :=
  let cs := trimBlanks cs
  if cs.isEmpty then some [] else (splitCommas [] cs).mapM fun part => readNumber (trimBlanks part)

/-- The request line a text spells (R88): a comment starts with `;`. -/
def readLine (text : List Char) : Option Line :=
  let code := trimBlanks (text.takeWhile (· != ';'))
  match LineHead.all.lookup (code.takeWhile fun c => !isBlank c), readOperands (code.dropWhile fun c => !isBlank c) with
  | some head, some operands => some ⟨head, operands⟩
  | _, _ => none

/-- The request words of a line of text: none for a blank or comment line, three for a pseudo-request (R88, R89). -/
def assemble (text : List Char) : Option (List RequestWord) :=
  if (trimBlanks (text.takeWhile (· != ';'))).isEmpty then some []
  else
    match readLine text with
    | some l => l.requests.map (List.map encode)
    | none => none

end Sys2Proof
end

