-- ==== Sys2Proof/Machine/Image.lean ====
section
/-! DEFINITION. The two informative views of the state: the register image of 10_state.md R30 and the pins of
40_line_controller.md R113. No request depends on them. -/

namespace Sys2Proof.Machine

/-- `dir` in bit 5 (R30). -/
def Dir.bit : Dir → BitVec 1
  | .write => 0
  | .read => 1

/-- `mode` in bits [7:6] (R30). -/
def Mode.bits : Mode → BitVec 2
  | .idle => 0
  | .pixelWrite => 1
  | .pixelRead => 2

/-- The tag of `win` in bits [9:8] (R30). -/
def Win.tag : Win → BitVec 2
  | .unknown => 0
  | .defaultLR => 1
  | .customLR _ _ => 2

/-- `x2` where the tag is 2; otherwise the field has no meaning and holds whatever is given. -/
def Win.x2Field (free : Word16) : Win → Word16
  | .unknown => free
  | .defaultLR => free
  | .customLR x2 _ => x2

/-- The separate 16-bit register of `y2`; without meaning, whatever is given, unless the tag is 2 (R30). -/
def Win.y2Register (free : Word16) : Win → Word16
  | .unknown => free
  | .defaultLR => free
  | .customLR _ y2 => y2

/-- The 40-bit register image (R30): `dbus` [39:32], `x2` [31:16], zero [15:10], `win` tag [9:8], `mode` [7:6], `dir` [5], then
rst, rd, wr, cd and cs in bits 4 to 0. -/
def State.image (freeX2 : Word16) (s : State) : BitVec 40 :=
  s.dbus ++ s.win.x2Field freeX2 ++ (0 : BitVec 6) ++ s.win.tag ++ s.mode.bits ++ s.dir.bit
    ++ s.lines.rst.bit ++ s.lines.rd.bit ++ s.lines.wr.bit ++ s.lines.cd.bit ++ s.lines.cs.bit

/-- The outputs of a hardware implementation (R113); the input `data_in` is read at a `Sample` event. -/
structure Pins where
  csN : Level
  cd : Level
  wrN : Level
  rdN : Level
  rstN : Level
  dataOut : Byte
  dataOe : Bool
deriving DecidableEq, Repr

/-- The pins of a state (R113): `data_oe` is 1 when `dir = Write`. -/
def State.pins (s : State) : Pins where
  csN := s.lines.cs
  cd := s.lines.cd
  wrN := s.lines.wr
  rdN := s.lines.rd
  rstN := s.lines.rst
  dataOut := s.dbus
  dataOe := s.dir = .write

end Sys2Proof.Machine
end

