-- ==== Sys2Proof/Machine/Projection.lean ====
section
/-! DEFINITION. The projection of a trace to bus transactions (20_memory.md R62): what the display controller sees. -/

namespace Sys2Proof.Machine

/-- A bus transaction (R62). -/
inductive BusTxn where
  | wrCmd (b : Byte)
  | wrData (b : Byte)
  | rd (v : Byte)
  | turn (m : Dir)
  | wait (n : Nat)
deriving DecidableEq, Repr

/-- What the scan of a trace tracks: the lines and the byte last driven (R62). -/
structure Scan where
  lines : Lines
  dbus : Byte
deriving DecidableEq, Repr

/-- The scan at the start of a run: the reset lines (R35), and any byte, since `dbus` is unspecified there. -/
def Scan.start (dbus : Byte) : Scan := ⟨Lines.fullIdle, dbus⟩

/-- The scan at a state between two requests. -/
def Scan.ofState (s : State) : Scan := ⟨s.lines, s.dbus⟩

/-- The scan after one event: `Line` and `Drive` events update it (R62). -/
def Scan.after (c : Scan) : Event → Scan
  | .line l v => { c with lines := c.lines.set l v }
  | .drive b => { c with dbus := b }
  | .sample _ => c
  | .dir _ => c
  | .delay _ => c

/-- The transaction of a write strobe: a command or data, by the level of CD (R51, R62). -/
def Scan.strobed (p : Params) (c : Scan) : BusTxn :=
  if c.lines.cd = p.cdCmdLevel then .wrCmd c.dbus else .wrData c.dbus

/-- The transactions one event emits (R62). -/
def Scan.emits (p : Params) (c : Scan) : Event → List BusTxn
  | .line .wr .low => if c.lines.wr = .high ∧ c.lines.cs = .low then [c.strobed p] else []
  | .line .wr .high => []
  | .line .cs _ => []
  | .line .cd _ => []
  | .line .rd _ => []
  | .line .rst _ => []
  | .drive _ => []
  | .sample v => [.rd v]
  | .dir m => [.turn m]
  | .delay n => [.wait n]

/-- The scan after a trace. -/
def Scan.afterAll (c : Scan) : List Event → Scan
  | [] => c
  | e :: es => (c.after e).afterAll es

/-- The Bus Direction after a trace: that of its last `Dir` event (R26, R67). -/
def dirAlong (d : Dir) : List Event → Dir
  | [] => d
  | .dir m :: es => dirAlong m es
  | .line _ _ :: es => dirAlong d es
  | .drive _ :: es => dirAlong d es
  | .sample _ :: es => dirAlong d es
  | .delay _ :: es => dirAlong d es

/-- `bus(trace)` from a given scan (R62). -/
def busFrom (p : Params) (c : Scan) : List Event → List BusTxn
  | [] => []
  | e :: es => c.emits p e ++ busFrom p (c.after e) es

/-- A transaction that moves a byte: not `Wait` and not `Turn`. -/
def BusTxn.movesByte : BusTxn → Bool
  | .wrCmd _ => true
  | .wrData _ => true
  | .rd _ => true
  | .turn _ => false
  | .wait _ => false

/-- `bytes(trace)` from a given scan: the projection without `Wait` and `Turn` (R62). -/
def bytesFrom (p : Params) (c : Scan) (es : List Event) : List BusTxn := (busFrom p c es).filter BusTxn.movesByte

/-- `bus(trace)` of a whole run, from the reset values (R62). -/
def bus (p : Params) (dbus : Byte) (es : List Event) : List BusTxn := busFrom p (Scan.start dbus) es

/-- The events a request or a run has added between two states: the later trace extends the earlier one. -/
def newEvents (s t : State) : List Event := t.trace.drop s.trace.length

/-- `bytes` of the events added between two states, scanned from the earlier one. -/
def bytesBetween (p : Params) (s t : State) : List BusTxn := bytesFrom p (Scan.ofState s) (newEvents s t)

end Sys2Proof.Machine
end

