-- ==== Sys2Proof/Machine/Spelling.lean ====
section
/-! DEFINITION. The short spelling of events of 00_scope.md R7, and the event lists that 42_transaction.md and 43_window.md R162
print, with `T_WR_PULSE` = 0 and `CD_CMD_LEVEL` = 0 as in every example of the spec, and the `bytes` they print. Tests and statements are written with
them; the operations of Machine/Ops.lean are not, so the two can be held against each other. -/

namespace Sys2Proof.Machine.Spelling

abbrev CS0 : Event := .line .cs .low
abbrev CS1 : Event := .line .cs .high
abbrev CD0 : Event := .line .cd .low
abbrev CD1 : Event := .line .cd .high
abbrev WR0 : Event := .line .wr .low
abbrev WR1 : Event := .line .wr .high
abbrev RD0 : Event := .line .rd .low
abbrev RD1 : Event := .line .rd .high
abbrev D (b : Byte) : Event := .drive b
abbrev S (v : Byte) : Event := .sample v
abbrev DIRW : Event := .dir .write
abbrev DIRR : Event := .dir .read
abbrev DLY (n : Nat) : Event := .delay n

/-- `sendCommand(opcode)`: `CD0 D=oo WR0 WR1 CD1` (R130). -/
def command (opcode : Byte) : List Event := [CD0, D opcode, WR0, WR1, CD1]

/-- `sendDataPair(hi, lo)`: `CD1 D=hh WR0 WR1 D=ll WR0 WR1` (R131). -/
def pair (hi lo : Byte) : List Event := [CD1, D hi, WR0, WR1, D lo, WR0, WR1]

/-- A 16-bit value as a data pair, high byte first (R133). -/
def word (v : Word16) : List Event := pair (hiByte v) (loByte v)

/-- A window command with its start bound: 12 events (R162). -/
def start (opcode : Byte) (v : Word16) : List Event := command opcode ++ word v

/-- A window command with both bounds: 19 events (R162). -/
def range (opcode : Byte) (v1 v2 : Word16) : List Event := command opcode ++ word v1 ++ word v2

/-- `bytes` of a 16-bit parameter or a pixel word: high byte first (R54, R133, R139). -/
def wordBytes (v : Word16) : List BusTxn := [.wrData (hiByte v), .wrData (loByte v)]

/-- `bytes` of a window command with its start bound (R161). -/
def startBytes (opcode : Byte) (v : Word16) : List BusTxn := .wrCmd opcode :: wordBytes v

/-- `bytes` of a window command with both bounds (R161). -/
def rangeBytes (opcode : Byte) (v1 v2 : Word16) : List BusTxn := .wrCmd opcode :: (wordBytes v1 ++ wordBytes v2)

/-- `bytes` of the requests of R165's pattern: a SETPX sends the top-left bound only. -/
def topLeftBytes (p : Params) : Instr → List BusTxn
  | .setpx x y => startBytes p.opCaset x ++ startBytes p.opPaset y
  | .beginpx => [.wrCmd p.opRamwr]
  | .pxw color => wordBytes color
  | .pxrun color n => (List.replicate n.toNat (wordBytes color)).flatten
  | .dat2 hi lo => [.wrData hi, .wrData lo]
  | .datf byte => [.wrData byte, .wrData byte]
  | .wrb value => [.wrData value]
  | .setwin _ _ _ _ | .rstfw | .beginrd | .rdpx | .endrd | .cmd _ | .rdb => []

end Sys2Proof.Machine.Spelling
end

