-- ==== Sys2Proof/Machine/Parametric.lean ====
section
/-! DEFINITION. The step function of 00_scope.md R10 with the parameters as an argument, `step(params, state, request, …)`, and
runs of requests (R16). `exec` is `request` at the machine's parameters (Laws/Requests.lean). What is stated here holds for
every set of parameters, the reference values among them. -/

namespace Sys2Proof.Machine

/-- One request, for any parameters (R10). -/
def request (p : Params) (i : Instr) (s : State) : Host.Outcome State Fault Refusal :=
  match i with
  | .setpx x y => reqSetpx p x y s
  | .setwin x1 y1 x2 y2 => reqSetwin p x1 y1 x2 y2 s
  | .rstfw => reqRstfw p s
  | .beginpx => reqBeginpx p s
  | .pxw color => reqPxw p color s
  | .pxrun color n => reqPxrun p color n s
  | .beginrd => reqBeginrd p s
  | .rdpx => reqRdpx p s
  | .endrd => reqEndrd s
  | .cmd opcode => reqCmd p opcode s
  | .dat2 hi lo => reqDat2 p hi lo s
  | .datf byte => reqDatf p byte s
  | .wrb value => reqWrb p value s
  | .rdb => reqRdb p s

/-- The requests of a list, one after another; the first fault or refusal ends the run (R16). -/
def requests (p : Params) : List Instr → State → Host.Outcome State Fault Refusal
  | [], s => .next s
  | i :: rest, s =>
    match request p i s with
    | .next t => requests p rest t
    | .fault r => .fault r
    | .refused r => .refused r

end Sys2Proof.Machine
end

