-- ==== Sys2Proof/Safety.lean ====
section
/-! DEFINITION. What counts as safe, in the terms claims use: legality by the Bus Direction (60_exceptions.md R182), the invariants
between requests (10_state.md R29), the glitch-free contract as a monitor of traces (20_memory.md R63), what the window commands
sent so far have programmed and what the belief claims of it (43_window.md R170), and the caller's duties
(70_reset_and_hazards.md R210 to R216), which the block does not enforce (assumption 14). What these duties leave open is settled
in assumptions 16 to 21 and 23. -/

namespace Sys2Proof.Safety

open Sys2Proof.Machine

/-! ## Legality (R182) -/

/-- The Bus Direction a request needs: R182's table. -/
def neededDir : Instr → Dir
  | .rdpx => .read
  | .rdb => .read
  | .endrd => .read
  | .setpx _ _ => .write
  | .setwin _ _ _ _ => .write
  | .rstfw => .write
  | .beginpx => .write
  | .pxw _ => .write
  | .pxrun _ _ => .write
  | .beginrd => .write
  | .cmd _ => .write
  | .dat2 _ _ => .write
  | .datf _ => .write
  | .wrb _ => .write

/-- The Bus Direction after a legal request: BEGINRD and ENDRD change it (R26, R36). -/
def dirAfter (i : Instr) (d : Dir) : Dir :=
  if i = .beginrd then .read else if i = .endrd then .write else d

/-- A list of requests brackets its reads (R211): each request is legal where it stands. -/
def bracketed : Dir → List Instr → Bool
  | _, [] => true
  | d, i :: rest => neededDir i == d && bracketed (dirAfter i d) rest

/-! ## Invariants between requests (R29) -/

/-- R29 (a) and (b): the full idle pattern, and `dir = Read` exactly in PixelRead. -/
abbrev Quiescent (s : State) : Prop :=
  s.lines = Lines.fullIdle ∧ (s.dir = .read ↔ s.mode = .pixelRead)

/-! ## The glitch-free contract (R63) -/

/-- Where in a strobe the trace stands. -/
inductive Phase where
  /-- Both strobes are inactive. -/
  | between
  /-- WR is low; whether the one allowed delay has been seen. -/
  | writing (delayed : Bool)
  /-- RD is low and the settle delay has not been seen. -/
  | reading
  /-- RD is low and the settle delay has been seen. -/
  | settled
  /-- RD is low and the bus has been sampled. -/
  | sampled
deriving DecidableEq, Repr

/-- What the monitor tracks: the levels of the lines, the Bus Direction and the phase. -/
structure Monitor where
  lines : Lines
  dir : Dir
  phase : Phase
deriving DecidableEq, Repr

/-- The monitor at a state between two requests. -/
def Monitor.ofState (s : State) : Monitor := ⟨s.lines, s.dir, .between⟩

/-- The monitor at the start of a run (R35). -/
def Monitor.start : Monitor := ⟨Lines.fullIdle, .write, .between⟩

/-- One event. The event is allowed only as R63 says: (a) in a write strobe at most one delay; (b) in a read strobe exactly the
settle delay and then a sample; (c) CD and CS only while both strobes are inactive; (d) a drive only then and while `dir =
Write`; (e) a direction change only then and while CS is low; (f) never both strobes. A write strobe needs `dir = Write` and a
read strobe `dir = Read` (R67), each needs CS low (R109, R110), RST never occurs (R112), a direction change changes the
direction (source property S4), and no delay but the two constants occurs (R123). -/
def Monitor.event (p : Params) (m : Monitor) (e : Event) : Option Monitor :=
  match m.phase, e with
  | .between, .line .cs v => some { m with lines := m.lines.set .cs v }
  | .between, .line .cd v => some { m with lines := m.lines.set .cd v }
  | .between, .line .wr .low =>
    if m.lines.cs = .low ∧ m.dir = .write then
      some { m with lines := m.lines.set .wr .low, phase := .writing false }
    else none
  | .between, .line .rd .low =>
    if m.lines.cs = .low ∧ m.dir = .read then
      some { m with lines := m.lines.set .rd .low, phase := .reading }
    else none
  | .between, .drive _ => if m.dir = .write then some m else none
  | .between, .dir d => if m.lines.cs = .low ∧ d ≠ m.dir then some { m with dir := d } else none
  | .between, .delay n => if n = p.tRdSettle then some m else none
  | .writing false, .delay n => if n = p.tWrPulse then some { m with phase := .writing true } else none
  | .writing _, .line .wr .high => some { m with lines := m.lines.set .wr .high, phase := .between }
  | .reading, .delay n => if n = p.tRdSettle then some { m with phase := .settled } else none
  | .settled, .sample _ => some { m with phase := .sampled }
  | .sampled, .line .rd .high => some { m with lines := m.lines.set .rd .high, phase := .between }
  | _, _ => none

/-- A trace, event by event; none as soon as one event is not allowed. -/
def Monitor.run (p : Params) : Monitor → List Event → Option Monitor
  | m, [] => some m
  | m, e :: es =>
    match m.event p e with
    | some m' => Monitor.run p m' es
    | none => none

/-- The trace of the run is glitch-free, and it accounts for the levels, the direction and the phase the state is in. -/
abbrev GlitchFree (p : Params) (s : State) : Prop :=
  Monitor.run p Monitor.start s.trace = some (Monitor.ofState s)

/-! ## The window the commands sent so far have programmed (R161, R170)

This reads the block's own bytes: which 16-bit values have been sent as bounds, by the shape of the window transactions of R161.
It is not a model of the controller (assumption 13). -/

/-- The command last sent, its parameter bytes so far, and the bounds last sent. -/
structure Programmed where
  cmd : Option Byte
  params : List Byte
  startCol : Option Word16
  endCol : Option Word16
  startRow : Option Word16
  endRow : Option Word16
deriving DecidableEq, Repr

/-- Nothing has been sent in this run. A reset of the block does not reset the controller (R201), which may still hold the last
command of an earlier run and part of its parameters; that data sent before the first command of the run programs nothing is the
model's choice (DESIGN CHOICE, assumption 23). -/
def Programmed.none : Programmed := ⟨Option.none, [], Option.none, Option.none, Option.none, Option.none⟩

/-- The bound a parameter list completes: two bytes complete the start, four the end (R53, R161). The source does not say what a
list of another length does (R52, 91_not_in_source.md N19): that one byte, a third byte, and every byte after the fourth,
program nothing, is the model's choice (DESIGN CHOICE, assumption 20). -/
def Programmed.bound (o : Programmed) (p : Params) : Programmed :=
  match o.params with
  | [h, l] =>
    if o.cmd = some p.opCaset then { o with startCol := some (joinBytes h l) }
    else if o.cmd = some p.opPaset then { o with startRow := some (joinBytes h l) }
    else o
  | [_, _, h, l] =>
    if o.cmd = some p.opCaset then { o with endCol := some (joinBytes h l) }
    else if o.cmd = some p.opPaset then { o with endRow := some (joinBytes h l) }
    else o
  | _ => o

/-- One bus transaction: a command begins a parameter list, a data byte extends it. -/
def Programmed.txn (p : Params) (o : Programmed) : BusTxn → Programmed
  | .wrCmd c => { o with cmd := some c, params := [] }
  | .wrData b => { o with params := o.params ++ [b] }.bound p
  | .rd _ => o
  | .turn _ => o
  | .wait _ => o

/-- A list of bus transactions. -/
def Programmed.txns (p : Params) (o : Programmed) (ts : List BusTxn) : Programmed := ts.foldl (Programmed.txn p) o

/-- What the run has programmed so far; the start byte of the scan stands for the unspecified `dbus`. -/
def programmed (p : Params) (dbus : Byte) (s : State) : Programmed := Programmed.none.txns p (bus p dbus s.trace)

/-- What `win` claims of the end column (R170): `XMAX` in DefaultLR, the recorded `x2` in CustomLR, nothing in Unknown. -/
def EndColClaim (p : Params) (w : Win) (o : Programmed) : Prop :=
  match w with
  | .unknown => True
  | .defaultLR => o.endCol = some p.xmax
  | .customLR x2 _ => o.endCol = some x2

/-- The end row the bytes sent leave, when it was `row0` as the block left reset (U12): the one last programmed, or `row0`. -/
def Programmed.endRowFrom (row0 : Word16) (o : Programmed) : Word16 := o.endRow.getD row0

/-- Assumption (c) of R170, also R204: the end row is `YMAX`. With nothing sent it says that of the end row at reset. -/
def RowAtDefault (p : Params) (row0 : Word16) (o : Programmed) : Prop := o.endRowFrom row0 = p.ymax

/-- What `win` claims of the end row (R170): `YMAX` in DefaultLR, nothing in CustomLR and Unknown. -/
def EndRowClaim (p : Params) (row0 : Word16) (w : Win) (o : Programmed) : Prop :=
  match w with
  | .unknown => True
  | .defaultLR => RowAtDefault p row0 o
  | .customLR _ _ => True

/-- The belief is true of what has been sent, when the end row was `row0` as the block left reset: its end column is the one last
programmed, its end row the one the bytes sent leave, and in PixelWrite the last command is the pixel-write-start command
(R27); the trace accounts for the levels of the lines. -/
def BeliefTrue (p : Params) (row0 : Word16) (s : State) : Prop :=
  ∀ d : Byte,
    ((Scan.start d).afterAll s.trace).lines = s.lines ∧
    EndColClaim p s.win (programmed p d s) ∧
    EndRowClaim p row0 s.win (programmed p d s) ∧
    (s.mode = .pixelWrite → (programmed p d s).cmd = some p.opRamwr)

/-! ## The caller's duties -/

/-- R216: the coordinates a request carries are inside the panel and in order. R216 names `x > XMAX`, `y > YMAX` and `x1 > x2`;
that a SETWIN must also have `y1 ≤ y2` and `y2 ≤ YMAX`, though `y2` is not sent, is the model's choice (DESIGN CHOICE,
assumption 16). -/
def coordsInRange (p : Params) : Instr → Bool
  | .setpx x y => x ≤ p.xmax && y ≤ p.ymax
  | .setwin x1 y1 x2 y2 => x1 ≤ x2 && x2 ≤ p.xmax && y1 ≤ y2 && y2 ≤ p.ymax
  | _ => true

/-- Where a list of requests stands in a drawing or reading operation (R210). -/
inductive DrawPhase where
  /-- No window has been programmed for the next operation. -/
  | unset
  /-- A SETPX or SETWIN has been issued, and its operation has not begun. -/
  | set
  /-- A pixel-write stream begun on a window of its own is open. -/
  | writing
  /-- A read stream begun on a window of its own is open. -/
  | reading
deriving DecidableEq, Repr

/-- R210 for one request: SETPX or SETWIN, then BEGINPX, then the pixel words; the same before BEGINRD and the reads; none where
the request breaks that order. That a RSTFW, a raw command, or raw data outside a stream leaves no window programmed, that DAT2,
DATF and WRB need none, and that a PXRUN of no words is no pixel word, is the model's choice (DESIGN CHOICE, assumption 18). -/
def DrawPhase.next (ph : DrawPhase) (i : Instr) : Option DrawPhase :=
  match i with
  | .setpx _ _ => some .set
  | .setwin _ _ _ _ => some .set
  | .rstfw => some .unset
  | .cmd _ => some .unset
  | .endrd => some .unset
  | .beginpx => if ph = .set then some .writing else none
  | .beginrd => if ph = .set then some .reading else none
  | .pxw _ => if ph = .writing then some .writing else none
  | .pxrun _ n => if ph = .writing ∨ n = 0 then some ph else none
  | .rdpx => if ph = .reading then some .reading else none
  | .rdb => if ph = .reading then some .reading else none
  | .dat2 _ _ => some (if ph = .set then .unset else ph)
  | .datf _ => some (if ph = .set then .unset else ph)
  | .wrb _ => some (if ph = .set then .unset else ph)

/-- R210: every drawing operation of the list, and every read, follows a SETPX or SETWIN of its own. -/
def windowFirst : DrawPhase → List Instr → Bool
  | _, [] => true
  | ph, i :: rest =>
    match ph.next i with
    | some ph' => windowFirst ph' rest
    | none => false

/-- Whether a stream is open, and whether half of a byte pair is out in it (R213). -/
inductive PairPhase where
  /-- No stream is open. -/
  | outside
  /-- A pixel-write or read stream is open, with whole pairs so far or with half of one out. -/
  | inStream (half : Bool)
deriving DecidableEq, Repr

/-- R213 for one request: inside a stream WRB and RDB stand in pairs, and nothing that moves whole pairs comes between the two. The
next command, or a restart of the stream, makes half a pair harmless, as R213 says; outside a stream it says nothing. That ENDRD
does so too, and that half a pair where the list ends in its stream breaks the duty, is the model's choice (DESIGN CHOICE,
assumption 19). -/
def PairPhase.next (ph : PairPhase) (i : Instr) : Option PairPhase :=
  match i with
  | .beginpx => some (.inStream false)
  | .beginrd => some (.inStream false)
  | .setpx _ _ => some .outside
  | .setwin _ _ _ _ => some .outside
  | .rstfw => some .outside
  | .cmd _ => some .outside
  | .endrd => some .outside
  | .wrb _ => some (match ph with | .outside => .outside | .inStream half => .inStream !half)
  | .rdb => some (match ph with | .outside => .outside | .inStream half => .inStream !half)
  | .pxrun _ n => if ph = .inStream true ∧ n ≠ 0 then none else some ph
  | .pxw _ => if ph = .inStream true then none else some ph
  | .dat2 _ _ => if ph = .inStream true then none else some ph
  | .datf _ => if ph = .inStream true then none else some ph
  | .rdpx => if ph = .inStream true then none else some ph

/-- R213: the byte pairs of the streams of a list are kept whole. -/
def pairsWhole : PairPhase → List Instr → Bool
  | ph, [] => ph ≠ .inStream true
  | ph, i :: rest =>
    match ph.next i with
    | some ph' => pairsWhole ph' rest
    | none => false

/-- The pixels of the window a window request leaves (R215): columns to the end column, rows from the start row to `YMAX`
(R204), not to the `y2` of SETWIN. How many pixels the controller's window has when the coordinates are out of range is not in
the spec (R216, 91_not_in_source.md N19): that it has none where a start lies past its end, and that an `x2` past `XMAX` counts
as it is, is the model's choice (DESIGN CHOICE, assumption 21). -/
def windowPixels (p : Params) : Instr → Option Nat
  | .setpx x y => some ((p.xmax.toNat + 1 - x.toNat) * (p.ymax.toNat + 1 - y.toNat))
  | .setwin x1 y1 x2 _ => some ((x2.toNat + 1 - x1.toNat) * (p.ymax.toNat + 1 - y1.toNat))
  | .rstfw => some ((p.xmax.toNat + 1) * (p.ymax.toNat + 1))
  | _ => none

/-- The bytes of pixel data a request writes in a pixel-write stream (R56). -/
def dataBytes : Instr → Nat
  | .pxw _ => 2
  | .pxrun _ n => 2 * n.toNat
  | .dat2 _ _ => 2
  | .datf _ => 2
  | .wrb _ => 1
  | _ => 0

/-- What R215 tracks: the pixels of the window last programmed, and the bytes an open pixel-write stream may still write, none
while no such stream is open. -/
structure StreamRoom where
  pixels : Nat
  room : Option Nat
deriving DecidableEq, Repr

/-- R215 for one request; none where a pixel-write stream would run over its window. Every command ends the stream. Data outside a
stream is no pixel data and is not counted. The source is silent on where a second BEGINPX without a new window command starts
(91_not_in_source.md N19): that every BEGINPX has the whole window again, and that raw requests leave the window's size, is the
model's choice (DESIGN CHOICE, assumption 17). -/
def StreamRoom.next (p : Params) (r : StreamRoom) (i : Instr) : Option StreamRoom :=
  match i with
  | .setpx _ _ => some ⟨(windowPixels p i).getD r.pixels, none⟩
  | .setwin _ _ _ _ => some ⟨(windowPixels p i).getD r.pixels, none⟩
  | .rstfw => some ⟨(windowPixels p i).getD r.pixels, none⟩
  | .beginpx => some { r with room := some (2 * r.pixels) }
  | .beginrd => some { r with room := none }
  | .cmd _ => some { r with room := none }
  | .endrd => some { r with room := none }
  | .rdpx => some r
  | .rdb => some r
  | .pxw _ | .pxrun _ _ | .dat2 _ _ | .datf _ | .wrb _ =>
    match r.room with
    | none => some r
    | some n => if dataBytes i ≤ n then some { r with room := some (n - dataBytes i) } else none

/-- R215: no pixel-write stream of the list is longer than its window. -/
def staysInside (p : Params) : StreamRoom → List Instr → Bool
  | _, [] => true
  | r, i :: rest =>
    match r.next p i with
    | some r' => staysInside p r' rest
    | none => false

/-- A request that writes data bytes and sends no command (R137). -/
def isDataWrite : Instr → Bool
  | .pxw _ => true
  | .pxrun _ _ => true
  | .dat2 _ _ => true
  | .datf _ => true
  | .wrb _ => true
  | _ => false

/-- R165's pattern: a SETPX, a BEGINPX, or, while a pixel-write stream is open, a data write. -/
def pixelByPixelStep : Mode → Instr → Bool
  | _, .setpx _ _ => true
  | _, .beginpx => true
  | .pixelWrite, i => isDataWrite i
  | .idle, _ => false
  | .pixelRead, _ => false

/-- R165's pattern: a SETPX closes the stream, a BEGINPX opens one. -/
def streamAfter (m : Mode) : Instr → Mode
  | .setpx _ _ => .idle
  | .beginpx => .pixelWrite
  | _ => m

/-- R165: a run of SETPX requests with only BEGINPX and, while a pixel-write stream is open, data writes between them. -/
def pixelByPixel : Mode → List Instr → Bool
  | _, [] => true
  | m, i :: rest => pixelByPixelStep m i && pixelByPixel (streamAfter m i) rest

end Sys2Proof.Safety
end

