-- ==== Sys2Proof/Certificates/Slice0/Obligations.lean ====
section
/-! DEFINITION. The statements for the provers. A `stated` statement cites the rule of the spec it formalises; every other one
rests on a rule the spec marks as its own decision (`D<n>` of 92_eei_decisions.md) or as derived, or on a choice of the model
(notes/assumptions), and its docstring says which. Statements over `Params` hold for every set of parameters that meets
their hypotheses; statements over `exec` and `step` are about the machine's own parameters. -/

open Sys2Proof
open Sys2Proof.Machine
open Sys2Proof.Machine.Spelling
open Sys2Proof.Safety

/-! ## Encoding -/

/-- Words written out from R84 and 95_test_vectors.md section 2.7 decode to the requests they stand for. The encoding is the
spec's decision D2. -/
def Obligations.SpecWordsDecode : Prop :=
  decode 0x01_0005_0007_FFFF_FFFF = .ok (.setpx 5 7) ∧
  decode 0x02_000A_0014_0032_003C = .ok (.setwin 10 20 50 60) ∧
  decode 0x03_1234_5678_9ABC_DEF0 = .ok .rstfw ∧
  decode 0x12_001F_0001_2C00_BEEF = .ok (.pxrun 0x001F 76800) ∧
  decode 0x1A_0000_0000_0000_0000 = .ok .endrd ∧
  decode 0x41_2233_0000_0000_0000 = .ok (.dat2 0x22 0x33) ∧
  decode 0x80_AB55_0000_0000_0000 = .ok (.wrb 0x55) ∧
  decode 0x13_0000_0000_0000_0000 = .error (.reservedOp 0x13)

/-- Every request, with every operand value, is read back from its word. The encoding is the spec's decision D2. -/
def Obligations.DecodeOfEncodeIsIdentity : Prop :=
  ∀ i : Instr, decode (encode i) = .ok i

/-- A word that decodes is the encoding of its request, but for the bits the table does not name, which an encoder writes as
zeros (R85, decision D3). -/
def Obligations.EncodeOfDecodeKeepsUsedBits : Prop :=
  ∀ (w : RequestWord) (i : Instr), decode w = .ok i → encode i = w &&& i.mnemonic.usedBits

/-- Bits of a word the table does not name for its request have no effect (R85, decision D3). -/
def Obligations.UnusedBitsHaveNoEffect : Prop :=
  ∀ (w w' : RequestWord) (i : Instr), decode w = .ok i →
    w' &&& i.mnemonic.usedBits = w &&& i.mnemonic.usedBits → decode w' = .ok i

/-- A word is refused exactly when its operation code is none of the table's, before any contract check (R86, R183, R185;
decision D3): the step then refuses it, whatever the state. -/
def Obligations.ReservedOperationCodesAreRefused : Prop :=
  ∀ (w : RequestWord) (s : State) (rest : List Input), s.inputs = .request w :: rest →
    (step s = .refused (.illegalRequest (opField w)) ↔
      opField w ∉ ([0x01, 0x02, 0x03, 0x10, 0x11, 0x12, 0x18, 0x19, 0x1A, 0x40, 0x41, 0x42, 0x80, 0x81] : List Byte))

/-- The line of a request assembles to exactly that request (R88, decision D2). -/
def Obligations.LineOfRequestAssembles : Prop :=
  ∀ i : Instr, i.line.requests = some [i]

/-- The register image determines the state elements it holds: the lines, `dbus`, `dir`, `mode`, the tag of `win` and, in
CustomLR, `x2` (R30, decision D29). -/
def Obligations.RegisterImageDeterminesState : Prop :=
  ∀ (f f' : Word16) (s s' : State), s.image f = s'.image f' →
    s.lines = s'.lines ∧ s.dbus = s'.dbus ∧ s.dir = s'.dir ∧ s.mode = s'.mode ∧ s.win.tag = s'.win.tag ∧
    (s.win.tag = 2 → s.win.x2Field f = s'.win.x2Field f)

/-! ## The step -/

/-- When the word at the request port decodes to a request, the step executes that request on the state from which the word has
been taken (R10, R80; that the waiting words stand in the state is the model's choice, assumption 2). -/
def Obligations.StepExecutesDecodedRequest : Prop :=
  ∀ (s : State) (w : RequestWord) (rest : List Input) (i : Instr),
    s.inputs = .request w :: rest → decode w = .ok i → step s = exec i { s with inputs := rest }

/-- With nothing waiting the block idles with all its state kept (R16, decision D1; that idling is a step is the model's choice,
assumption 3). -/
def Obligations.StepIdlesWithAllStateKept : Prop :=
  ∀ s : State, s.inputs = [] → step s = .next s

/-- A reset puts every element at its reset value and emits no event; `dbus` holds some byte (R35, R200, decision D27; that the
run starts anew is the model's choice, assumption 4). -/
def Obligations.ResetInputRestoresResetState : Prop :=
  ∀ (s : State) (rest : List Input), s.inputs = .reset :: rest →
    ∃ (b : Byte) (n : Nat), step s = .next
      { lines := ⟨.high, .high, .high, .high, .high⟩, dbus := b, dir := .write, mode := .idle, win := .unknown,
        inputs := rest, answers := s.answers, draws := n, trace := [], responses := [] }

/-- The reset state has the values R35 gives (decision D27; `win` is the source's); its value of `dbus` is not stated. -/
def Obligations.ResetStateHoldsSpecValues : Prop :=
  State.reset.lines = ⟨.high, .high, .high, .high, .high⟩ ∧ State.reset.dir = .write ∧
  State.reset.mode = .idle ∧ State.reset.win = .unknown ∧ State.reset.trace = []

/-- Running the encoded words of a list of requests, one step each, is running the requests (R10, R16, R80; decisions D1, D2; that
the words wait in a list in the state is the model's choice, assumption 2, and that the first fault ends the run is assumption
15). -/
def Obligations.EncodedRunIsRequestRun : Prop :=
  ∀ (l : List Instr) (s : State),
    Sys2Proof.core.run l.length { s with inputs := l.map fun i => .request (encode i) }
      = requests Config.params l { s with inputs := [] }

/-! ## Micro-operations -/

/-- R131, for every parameter set: the events of a data pair, also when the two bytes are equal and when CD already has the data
level; nothing but the lines CD and WR and `dbus` is written; inside a burst the two bytes are sent as data. -/
def Obligations.DataPairSendsTwoFullBytes : Prop :=
  ∀ (p : Params) (hi lo : Byte) (s : State),
    let pulse := if 0 < p.tWrPulse then [DLY p.tWrPulse] else []
    let events := [.line .cd p.dataLevel, D hi, WR0] ++ pulse ++ [WR1, D lo, WR0] ++ pulse ++ [WR1]
    sendDataPair p hi lo s =
      { s with lines := { s.lines with cd := p.dataLevel, wr := .high }, dbus := lo, trace := s.trace ++ events } ∧
    (s.lines.cs = .low → s.lines.wr = .high →
      bytesFrom p (Scan.ofState s) events = [.wrData hi, .wrData lo])

/-- A byte write drives, then strobes (R120, R109): for every parameter set; CS and CD are not touched. The strobe's shape is the
spec's decision D9. -/
def Obligations.ByteWriteDrivesThenStrobes : Prop :=
  ∀ (p : Params) (b : Byte) (s : State),
    writeByte p b s =
      { s with
        lines := { s.lines with wr := .high }
        dbus := b
        trace := s.trace ++ ([D b, WR0] ++ (if 0 < p.tWrPulse then [DLY p.tWrPulse] else []) ++ [WR1]) }

/-- A byte read asserts the read strobe, waits the settle delay, samples and releases (R121): for every parameter set, with the
environment's next byte (R58, decision D30). -/
def Obligations.ByteReadSettlesThenSamples : Prop :=
  ∀ (p : Params) (s : State),
    readByte p s = ((draw s).1,
      { (draw s).2 with
        lines := { s.lines with rd := .high }
        trace := s.trace ++ [RD0, DLY p.tRdSettle, S (draw s).1, RD1] })

/-- The environment's bytes are taken in order: the next listed answer, and only it, is used up (R10, R58; decision D30). -/
def Obligations.DrawTakesTheNextAnswer : Prop :=
  ∀ (s : State) (v : Byte) (rest : List Byte), s.answers = v :: rest → draw s = (v, { s with answers := rest })

/-! ## What each request does

Each of these says that the request completes when the Bus Direction fits, and gives the whole next state: what is not named is
unchanged. Every request is a burst of its own by decision D8. -/

/-- R138: BEGINPX sends the pixel-write-start command and opens the stream, in every mode; it programs no window and leaves `win`;
its operation code is 0x10; with `dir = Read` it is a contract violation. -/
def Obligations.BeginPixelStreamSendsCommand : Prop :=
  ∀ s : State,
    (s.dir = .write → exec .beginpx s = .next
      { s with
        lines := { s.lines with cs := .high, cd := .high, wr := .high }
        dbus := Config.opRamwr
        mode := .pixelWrite
        trace := s.trace ++ [CS0, CD0, D Config.opRamwr, WR0, WR1, CD1, CS1] }) ∧
    (s.dir = .read → exec .beginpx s = .fault (.contractViolation .BEGINPX .read)) ∧
    decode 0x10_0000_0000_0000_0000 = .ok .beginpx

/-- PXW sends the high byte, then the low byte, and loses the belief outside a stream (R139, R137; decisions D14, D16). -/
def Obligations.PixelWordSendsHighThenLow : Prop :=
  ∀ (color : Word16) (s : State), s.dir = .write → exec (.pxw color) s = .next
    { s with
      lines := { s.lines with cs := .high, cd := .high, wr := .high }
      dbus := loByte color
      win := if s.mode = .idle then .unknown else s.win
      trace := s.trace ++
        [CS0, CD1, D (hiByte color), WR0, WR1, D (loByte color), WR0, WR1, CS1] }

/-- DAT2 sends its two bytes (R134, R137; decisions D2, D16). -/
def Obligations.RawDataPairSendsBothBytes : Prop :=
  ∀ (hi lo : Byte) (s : State), s.dir = .write → exec (.dat2 hi lo) s = .next
    { s with
      lines := { s.lines with cs := .high, cd := .high, wr := .high }
      dbus := lo
      win := if s.mode = .idle then .unknown else s.win
      trace := s.trace ++ [CS0, CD1, D hi, WR0, WR1, D lo, WR0, WR1, CS1] }

/-- DATF drives its byte once and strobes it twice (R135, R132, R137; decisions D13, D16). -/
def Obligations.FastTransferDrivesOnceStrobesTwice : Prop :=
  ∀ (byte : Byte) (s : State), s.dir = .write → exec (.datf byte) s = .next
    { s with
      lines := { s.lines with cs := .high, cd := .high, wr := .high }
      dbus := byte
      win := if s.mode = .idle then .unknown else s.win
      trace := s.trace ++ [CS0, CD1, D byte, WR0, WR1, WR0, WR1, CS1] }

/-- WRB sends one byte at the level CD has; CD is not driven (R124, R137; decisions D2, D16). -/
def Obligations.RawByteLeavesSelectLine : Prop :=
  ∀ (value : Byte) (s : State), s.dir = .write → exec (.wrb value) s = .next
    { s with
      lines := { s.lines with cs := .high, wr := .high }
      dbus := value
      win := if s.mode = .idle then .unknown else s.win
      trace := s.trace ++ [CS0, D value, WR0, WR1, CS1] }

/-- CMD sends its command byte and loses the belief and the stream, whatever the opcode (R136; decisions D2, D16). -/
def Obligations.RawCommandLosesBelief : Prop :=
  ∀ (opcode : Byte) (s : State), s.dir = .write → exec (.cmd opcode) s = .next
    { s with
      lines := { s.lines with cs := .high, cd := .high, wr := .high }
      dbus := opcode
      mode := .idle
      win := .unknown
      trace := s.trace ++ [CS0, CD0, D opcode, WR0, WR1, CD1, CS1] }

/-- PXRUN sends its pixel word `n` times in one burst; a count of 0 sends nothing and changes nothing but the lines CS and the
trace (R141, R137; decisions D14, D16). -/
def Obligations.BulkTransferRepeatsPixelWord : Prop :=
  ∀ (color : Word16) (n : RepeatCount) (s : State), s.dir = .write →
    exec (.pxrun color n) s = .next
      { s with
        lines :=
          if n = 0 then { s.lines with cs := .high }
          else { s.lines with cs := .high, cd := .high, wr := .high }
        dbus := if n = 0 then s.dbus else loByte color
        win := if s.mode = .idle ∧ n ≠ 0 then .unknown else s.win
        trace := s.trace ++ (CS0 :: (List.replicate n.toNat
          [CD1, D (hiByte color), WR0, WR1, D (loByte color), WR0, WR1]).flatten ++ [CS1]) }

/-- BEGINRD sends the read-start command, turns the bus, waits, and makes one dummy read whose byte is discarded (R142, R143;
decision D17). -/
def Obligations.BeginReadStreamTurnsBusThenReads : Prop :=
  ∀ s : State, s.dir = .write → exec .beginrd s = .next
    { (draw s).2 with
      lines := { s.lines with cs := .high, cd := .high, wr := .high, rd := .high }
      dbus := Config.opRamrd
      dir := .read
      mode := .pixelRead
      trace := s.trace ++
        [CS0, CD0, D Config.opRamrd, WR0, WR1, CD1, DIRR, CD1, DLY Config.tRdSettle,
          RD0, DLY Config.tRdSettle, S (draw s).1, RD1, CS1] }

/-- RDPX reads two bytes and returns them, the first as the high byte (R144; decisions D18, D30). -/
def Obligations.ReadPixelWordReturnsHighThenLow : Prop :=
  ∀ s : State, s.dir = .read →
    let hi := draw s
    let lo := draw hi.2
    exec .rdpx s = .next
      { lo.2 with
        lines := { s.lines with cs := .high, cd := .high, rd := .high }
        trace := s.trace ++
          [CS0, CD1, RD0, DLY Config.tRdSettle, S hi.1, RD1, RD0, DLY Config.tRdSettle, S lo.1, RD1, CS1]
        responses := s.responses ++ [hi.1 ++ lo.1] }

/-- RDB reads one byte and returns it zero-extended (R125; decisions D2, D30). -/
def Obligations.RawReadReturnsByte : Prop :=
  ∀ s : State, s.dir = .read → exec .rdb s = .next
    { (draw s).2 with
      lines := { s.lines with cs := .high, rd := .high }
      trace := s.trace ++ [CS0, RD0, DLY Config.tRdSettle, S (draw s).1, RD1, CS1]
      responses := s.responses ++ [(draw s).1.setWidth 16] }

/-- ENDRD turns the bus back and closes the stream (R145; decision D19). -/
def Obligations.EndReadStreamTurnsBusBack : Prop :=
  ∀ s : State, s.dir = .read → exec .endrd s = .next
    { s with
      lines := { s.lines with cs := .high }
      dir := .write
      mode := .idle
      trace := s.trace ++ [CS0, DIRW, CS1] }

/-- SETPX sends the lower-right reset unless the belief is DefaultLR, then the start column and the start row (R164, R163, R161;
decisions D21, D22, D25). The panel bounds are those of the machine's parameters (assumption 8). -/
def Obligations.SetPixelProgramsTopLeft : Prop :=
  ∀ (x y : Word16) (s : State), s.dir = .write → exec (.setpx x y) s = .next
    { s with
      lines := { s.lines with cs := .high, cd := .high, wr := .high }
      dbus := loByte y
      mode := .idle
      win := .defaultLR
      trace := s.trace ++ (CS0 ::
        ((if s.win = .defaultLR then []
          else range Config.opCaset 0 239 ++ range Config.opPaset 0 319)
          ++ start Config.opCaset x ++ start Config.opPaset y) ++ [CS1]) }

/-- SETWIN sends both column bounds and the start row, in every state of `win`, and records the corner; `y2` is not sent (R166;
decision D24). -/
def Obligations.SetWindowSendsBothColumnBounds : Prop :=
  ∀ (x1 y1 x2 y2 : Word16) (s : State), s.dir = .write → exec (.setwin x1 y1 x2 y2) s = .next
    { s with
      lines := { s.lines with cs := .high, cd := .high, wr := .high }
      dbus := loByte y1
      mode := .idle
      win := .customLR x2 y2
      trace := s.trace ++ (CS0 :: (range Config.opCaset x1 x2 ++ start Config.opPaset y1) ++ [CS1]) }

/-- RSTFW sends the full column range and row 0, in every state of `win` (R168; decision D23). The panel bound is
that of the machine's parameters (assumption 8). -/
def Obligations.ResetToFullWidthSendsDefaults : Prop :=
  ∀ s : State, s.dir = .write → exec .rstfw s = .next
    { s with
      lines := { s.lines with cs := .high, cd := .high, wr := .high }
      dbus := 0
      mode := .idle
      win := .defaultLR
      trace := s.trace ++ (CS0 :: (range Config.opCaset 0 239 ++ start Config.opPaset 0) ++ [CS1]) }

/-! ## Legality, transitions and frames of all requests -/

/-- The Bus Direction alone decides whether a request runs (R182, R185; decision D20): it completes when `dir` is what R182's
table gives, for every operand, and otherwise faults with its own mnemonic and the value of `dir`, writing nothing. -/
def Obligations.BusDirectionDecidesLegality : Prop :=
  ∀ (i : Instr) (s : State),
    (s.dir = neededDir i → ∃ t, exec i s = .next t) ∧
    (s.dir ≠ neededDir i → exec i s = .fault (.contractViolation i.mnemonic s.dir))

/-- R26: `dir` is written by BEGINRD (to Read) and ENDRD (to Write) only, each together with a `Dir` event; every other request
leaves `dir` and emits no `Dir` event; the contract check of every request reads `dir`. -/
def Obligations.DirectionWrittenByReadBracketOnly : Prop :=
  ∀ (i : Instr) (s t : State), exec i s = .next t →
    s.dir = neededDir i ∧
    (i = .beginrd → t.dir = .read ∧ DIRR ∈ newEvents s t) ∧
    (i = .endrd → t.dir = .write ∧ DIRW ∈ newEvents s t) ∧
    (i ≠ .beginrd → i ≠ .endrd → t.dir = s.dir ∧ ∀ m, .dir m ∉ newEvents s t)

/-- The transitions of `mode` (R146; decisions D15, D20). -/
def Obligations.StreamingModeTransitions : Prop :=
  ∀ (i : Instr) (s t : State), exec i s = .next t →
    t.mode =
      match i.mnemonic with
      | .SETPX | .SETWIN | .RSTFW | .CMD | .ENDRD => .idle
      | .BEGINPX => .pixelWrite
      | .BEGINRD => .pixelRead
      | .PXW | .PXRUN | .DAT2 | .DATF | .WRB | .RDPX | .RDB => s.mode

/-- The transitions of `win` (R169, derived in the spec from R164, R166, R168, R136, R137). -/
def Obligations.WindowBeliefTransitions : Prop :=
  ∀ (i : Instr) (s t : State), exec i s = .next t →
    t.win =
      match i with
      | .setpx _ _ => .defaultLR
      | .rstfw => .defaultLR
      | .setwin _ _ x2 y2 => .customLR x2 y2
      | .cmd _ => .unknown
      | .pxrun _ n => if s.mode = .idle ∧ n ≠ 0 then .unknown else s.win
      | .pxw _ | .dat2 _ _ | .datf _ | .wrb _ => if s.mode = .idle then .unknown else s.win
      | .beginpx | .beginrd | .rdpx | .rdb | .endrd => s.win

/-- What a request may write (R36, R83, R112, R177; R36 is derived in the spec), element by element: `dir` only in the read bracket;
`mode` only where a command is sent or the read stream ends; `win` only in SETPX, SETWIN, RSTFW, CMD and in data writes in mode
Idle; `dbus` and line WR only where a byte is written, line CD only where a select level is driven, line RD only where a byte is
read; line CS is left high; the responses only in RDPX and RDB, the environment's bytes only in a load; line RST and the waiting
inputs never; the trace only grows. A PXRUN of no words writes none of these but CS and the trace. -/
def Obligations.RequestsWriteOnlyTheirState : Prop :=
  ∀ (i : Instr) (s t : State), exec i s = .next t →
    (i ≠ .beginrd → i ≠ .endrd → t.dir = s.dir) ∧
    (i.mnemonic ∉ [.SETPX, .SETWIN, .RSTFW, .CMD, .BEGINPX, .BEGINRD, .ENDRD] → t.mode = s.mode) ∧
    (i.mnemonic ∉ [.SETPX, .SETWIN, .RSTFW, .CMD] → (isDataWrite i = true → s.mode ≠ .idle) → t.win = s.win) ∧
    (i.mnemonic ∈ [.RDPX, .RDB, .ENDRD] → t.dbus = s.dbus ∧ t.lines.wr = s.lines.wr) ∧
    (i.mnemonic ∈ [.RDB, .ENDRD, .WRB] → t.lines.cd = s.lines.cd) ∧
    (i.mnemonic ∉ [.BEGINRD, .RDPX, .RDB] →
      t.lines.rd = s.lines.rd ∧ t.answers = s.answers ∧ t.draws = s.draws) ∧
    ((∃ c, i = .pxrun c 0) →
      t.dbus = s.dbus ∧ t.win = s.win ∧ t.lines = { s.lines with cs := .high }) ∧
    (i ≠ .rdpx → i ≠ .rdb → t.responses = s.responses) ∧
    t.lines.cs = .high ∧ t.lines.rst = s.lines.rst ∧ t.inputs = s.inputs ∧
    t.trace = s.trace ++ newEvents s t

/-- R167: the only elision is that of SETPX in DefaultLR, so SETWIN is never shortened and the recorded corner is never compared.
The events of every other request do not depend on `win` (nor on `mode`, R137), and those of SETPX depend only on whether
`win` is DefaultLR: in any other belief they are the same but for the lower-right reset after the first event. For every
parameter set. -/
def Obligations.OnlySetPixelElides : Prop :=
  ∀ (p : Params) (s t : State) (w : Win),
    (∀ (i : Instr) (m : Mode), request p i s = .next t →
      (∀ x y, i = .setpx x y → (w = .defaultLR ↔ s.win = .defaultLR)) →
      ∃ u, request p i { s with mode := m, win := w } = .next u ∧
        newEvents { s with mode := m, win := w } u = newEvents s t) ∧
    (∀ x y : Word16, s.win = .defaultLR → w ≠ .defaultLR → request p (.setpx x y) s = .next t →
      ∃ u, request p (.setpx x y) { s with win := w } = .next u ∧
        newEvents { s with win := w } u = CS0 :: (newEvents s (lrReset p s) ++ (newEvents s t).tail))

/-- R123: the only delays in what a request emits are `T_RD_SETTLE` and, when it is not 0, `T_WR_PULSE`, for every parameter set
and every operand. -/
def Obligations.DelayLengthsAreConstants : Prop :=
  ∀ (p : Params) (i : Instr) (s t : State) (n : Nat), request p i s = .next t → .delay n ∈ newEvents s t →
    n = p.tRdSettle ∨ (n = p.tWrPulse ∧ p.tWrPulse ≠ 0)

/-- Cost figures (R222, derived in the spec): the number of events of each request, without a write pulse delay. -/
def Obligations.EventsPerRequest : Prop :=
  ∀ (p : Params) (i : Instr) (s t : State), p.tWrPulse = 0 → request p i s = .next t →
    (newEvents s t).length =
      match i with
      | .wrb _ => 5
      | .rdb => 6
      | .cmd _ => 7
      | .dat2 _ _ => 9
      | .pxw _ => 9
      | .datf _ => 8
      | .pxrun _ n => 2 + 7 * n.toNat
      | .beginpx => 7
      | .beginrd => 14
      | .rdpx => 11
      | .endrd => 3
      | .setpx _ _ => if s.win = .defaultLR then 26 else 64
      | .setwin _ _ _ _ => 33
      | .rstfw => 33

/-! ## Whole-machine rules -/

/-- The reset state is quiescent (R29 (a), (b), derived in the spec). -/
def Obligations.ResetIsQuiescent : Prop := Quiescent State.reset

/-- Every step that completes keeps the block quiescent: the full idle pattern between requests, and `dir = Read` exactly in
PixelRead (R29 (a), (b), derived in the spec). -/
def Obligations.StepKeepsQuiescent : Prop :=
  ∀ s t : State, Quiescent s → step s = .next t → Quiescent t

/-- The trace at reset is glitch-free (R63, derived in the spec). -/
def Obligations.ResetIsGlitchFree : Prop := GlitchFree Config.params State.reset

/-- Every step that completes keeps the trace glitch-free (R63, R67, R29 (c), (d), R110, R112, R122; all derived in the spec or its
decisions): the select lines move only between strobes, every write strobe has `dir = Write` and every read strobe `dir =
Read`, no two strobes overlap, every sample follows the settle delay, and the direction changes alternate. A step on a reset
input keeps it because the model starts the trace anew there (the model's choice, assumption 4): across a reset nothing is
said. The second part says the same of one request for every parameter set, those with a write pulse delay among them. -/
def Obligations.StepKeepsTraceGlitchFree : Prop :=
  (∀ s t : State, GlitchFree Config.params s → step s = .next t → GlitchFree Config.params t) ∧
  (∀ (p : Params) (i : Instr) (s t : State), GlitchFree p s → request p i s = .next t → GlitchFree p t)

/-- What the monitor's contract means in R63's own terms (derived in the spec; also R29 (c), (d), R62, R67, R112), at every point of
a trace the monitor accepts. First WR and RD are not both low (f) and RST is high. Then: (a) between WR low and the next WR high
there is at most one delay; (b) between RD low and the next RD high there are exactly the settle delay and a sample; (c) CS and
CD move only while both strobes are inactive; (d) the data bus is driven only then and while `dir = Write`; (e) the direction
changes only then and while CS is low. Last, a write strobe has CS low and `dir = Write`, a read strobe CS low and `dir = Read`,
and a sample CS and RD low, `dir = Read` and a settle delay directly before it. -/
def Obligations.AcceptedTracesAreGlitchFree : Prop :=
  ∀ (p : Params) (tr : List Event) (m : Monitor) (d : Byte) (k : Nat),
    Monitor.run p Monitor.start tr = some m →
    let l := ((Scan.start d).afterAll (tr.take k)).lines
    let dir := dirAlong .write (tr.take k)
    (l.wr = .high ∨ l.rd = .high) ∧ l.rst = .high ∧
    (∀ j, k < j → tr[k]? = some (.line .wr .low) → tr[j]? = some (.line .wr .high) →
      (∀ x, k < x → x < j → tr[x]? ≠ some (.line .wr .high)) →
      j = k + 1 ∨ (j = k + 2 ∧ ∃ n, tr[k + 1]? = some (.delay n))) ∧
    (∀ j, k < j → tr[k]? = some (.line .rd .low) → tr[j]? = some (.line .rd .high) →
      (∀ x, k < x → x < j → tr[x]? ≠ some (.line .rd .high)) →
      j = k + 3 ∧ tr[k + 1]? = some (.delay p.tRdSettle) ∧ ∃ v, tr[k + 2]? = some (.sample v)) ∧
    (∀ v, tr[k]? = some (.line .cs v) ∨ tr[k]? = some (.line .cd v) → l.wr = .high ∧ l.rd = .high) ∧
    (∀ b, tr[k]? = some (.drive b) → l.wr = .high ∧ l.rd = .high ∧ dir = .write) ∧
    (∀ m, tr[k]? = some (.dir m) → l.wr = .high ∧ l.rd = .high ∧ l.cs = .low) ∧
    (tr[k]? = some (.line .wr .low) → l.cs = .low ∧ dir = .write) ∧
    (tr[k]? = some (.line .rd .low) → l.cs = .low ∧ dir = .read) ∧
    (∀ v, tr[k]? = some (.sample v) →
      l.cs = .low ∧ l.rd = .low ∧ dir = .read ∧ 0 < k ∧ tr[k - 1]? = some (.delay p.tRdSettle))

/-- Every request is one burst: CS is asserted by its first event, released by its last, and not touched between (R108, decision
D8), for every parameter set. -/
def Obligations.EveryRequestIsOneBurst : Prop :=
  ∀ (p : Params) (i : Instr) (s t : State), request p i s = .next t →
    ∃ body, newEvents s t = CS0 :: (body ++ [CS1]) ∧ ∀ v, .line .cs v ∉ body

/-- Only the patterns of R102 appear on the lines, at every point of every request (derived in the spec; decision D6): full idle,
burst idle, ready to send a command, and the three strobes. -/
def Obligations.OnlyNamedPatternsAppear : Prop :=
  ∀ (i : Instr) (s t : State) (k : Nat), s.lines = Lines.fullIdle → exec i s = .next t →
    ((Scan.ofState s).afterAll ((newEvents s t).take k)).lines ∈
      ([⟨.high, .high, .high, .high, .high⟩, ⟨.low, .high, .high, .high, .high⟩, ⟨.low, .low, .high, .high, .high⟩,
        ⟨.low, .low, .low, .high, .high⟩, ⟨.low, .high, .low, .high, .high⟩, ⟨.low, .high, .high, .low, .high⟩] : List Lines)

/-- A list of requests completes exactly when it brackets its reads (R211, R182; decision D20). -/
def Obligations.BracketedRunsComplete : Prop :=
  ∀ (l : List Instr) (s : State), (∃ t, requests Config.params l s = .next t) ↔ bracketed s.dir l = true

/-- What the environment answers has no effect but on the samples of the trace and the responses (R58, R181; decision D30). -/
def Obligations.SampledBytesAreNotInterpreted : Prop :=
  ∀ (p : Params) (i : Instr) (s t : State) (answers : List Byte) (draws : Nat), request p i s = .next t →
    ∃ u, request p i { s with answers := answers, draws := draws } = .next u ∧
      u.lines = t.lines ∧ u.dbus = t.dbus ∧ u.dir = t.dir ∧ u.mode = t.mode ∧ u.win = t.win ∧ u.inputs = t.inputs ∧
      u.responses.length = t.responses.length ∧
      let blank : Event → Event := fun e => match e with | .sample _ => .sample 0 | e => e
      u.trace.map blank = t.trace.map blank

/-- What a request sends does not depend on the byte left on the data bus: `dbus` is never used before it is written (R25; a
decision of the spec, D13, and derived in it). -/
def Obligations.DataBusNeverUsedBeforeDriven : Prop :=
  ∀ (p : Params) (i : Instr) (s t : State) (d d' : Byte), request p i s = .next t →
    busFrom p ⟨s.lines, d⟩ (newEvents s t) = busFrom p ⟨s.lines, d'⟩ (newEvents s t)

/-- The other polarity of CD changes no bus transaction (D5: `bus(trace)` is unchanged because it uses the parameter), from states
whose CD is at the data level. -/
def Obligations.BusDoesNotDependOnSelectPolarity : Prop :=
  ∀ (p : Params) (i : Instr) (s t : State), s.lines.cd = p.dataLevel → request p i s = .next t →
    let q := { p with cdCmdLevel := p.dataLevel }
    let r := { s with lines := { s.lines with cd := q.dataLevel } }
    ∃ u, request q i r = .next u ∧
      busFrom q (Scan.ofState r) (newEvents r u) = busFrom p (Scan.ofState s) (newEvents s t)

/-! ## What the controller is sent -/

/-- Coordinates and command bytes are passed through uninterpreted (R59): for every operand value SETPX, SETWIN and CMD complete,
and what they send holds the operands as they are, but for `y2` of SETWIN, which is not sent. The bytes are the spec's decisions:
high byte first (D12), the top-left-changing commands (D25), the lower-right reset before SETPX unless the belief is DefaultLR
(D21, D22), both column bounds and the start row of SETWIN (D24). For every parameter set, from every state whose write strobe
is inactive. -/
def Obligations.CoordinatesPassUninterpreted : Prop :=
  ∀ (p : Params) (s : State), s.lines.wr = .high → s.dir = .write →
    (∀ x y : Word16, ∃ t, request p (.setpx x y) s = .next t ∧
      bytesBetween p s t =
        (if s.win = .defaultLR then [] else rangeBytes p.opCaset 0 p.xmax ++ rangeBytes p.opPaset 0 p.ymax)
          ++ startBytes p.opCaset x ++ startBytes p.opPaset y) ∧
    (∀ x1 y1 x2 y2 : Word16, ∃ t, request p (.setwin x1 y1 x2 y2) s = .next t ∧
      bytesBetween p s t = rangeBytes p.opCaset x1 x2 ++ startBytes p.opPaset y1) ∧
    (∀ opcode : Byte, ∃ t, request p (.cmd opcode) s = .next t ∧ bytesBetween p s t = [.wrCmd opcode])

/-- The byte transfers of each request (R56; the requests' own rules are decisions of the spec): writes and reads together. -/
def Obligations.ByteTransfersPerRequest : Prop :=
  ∀ (p : Params) (i : Instr) (s t : State), s.lines = Lines.fullIdle → request p i s = .next t →
    (bytesBetween p s t).length =
      match i with
      | .wrb _ => 1
      | .rdb => 1
      | .cmd _ => 1
      | .dat2 _ _ => 2
      | .datf _ => 2
      | .pxw _ => 2
      | .rdpx => 2
      | .pxrun _ n => 2 * n.toNat
      | .setpx _ _ => if s.win = .defaultLR then 6 else 16
      | .setwin _ _ _ _ => 8
      | .rstfw => 8
      | .beginpx => 1
      | .beginrd => 2
      | .endrd => 0

/-- A SETPX after a SETWIN reprograms the lower-right bound once, and the next SETPX does not (source property S2; R164, R166;
decisions D21, D22, D24). -/
def Obligations.LowerRightBoundReprogrammedOnce : Prop :=
  ∀ (p : Params) (s : State) (x1 y1 x2 y2 x y x' y' : Word16),
    p.cdCmdLevel = .low → s.lines = Lines.fullIdle → s.dir = .write →
    ∃ t, requests p [.setwin x1 y1 x2 y2, .setpx x y, .setpx x' y'] s = .next t ∧
      t.win = .defaultLR ∧
      bytesBetween p s t =
        rangeBytes p.opCaset x1 x2 ++ startBytes p.opPaset y1 ++
        rangeBytes p.opCaset 0 p.xmax ++ rangeBytes p.opPaset 0 p.ymax ++
        startBytes p.opCaset x ++ startBytes p.opPaset y ++
        startBytes p.opCaset x' ++ startBytes p.opPaset y'

/-- RSTFW emits the same events in every state; none is suppressed (source property S6; R168, decision D23). -/
def Obligations.ResetToFullWidthNeverSuppressed : Prop :=
  ∀ (p : Params) (s s' t t' : State), request p .rstfw s = .next t → request p .rstfw s' = .next t' →
    newEvents s t = newEvents s' t'

/-- The optimised path (R165, derived in the spec): from DefaultLR a run of SETPX requests, with only BEGINPX and data writes
inside a pixel-write stream between them, completes, stays in DefaultLR, and sends for every SETPX the top-left bound only. -/
def Obligations.PixelByPixelNeverSendsLowerRight : Prop :=
  ∀ (p : Params) (l : List Instr) (s : State),
    p.cdCmdLevel = .low → s.lines = Lines.fullIdle → s.dir = .write → s.win = .defaultLR →
    pixelByPixel s.mode l = true →
    ∃ t, requests p l s = .next t ∧ t.win = .defaultLR ∧
      bytesBetween p s t = l.flatMap (topLeftBytes p)

/-- A run of data writes sends data and nothing else (R140, derived in the spec). -/
def Obligations.StreamSendsDataOnly : Prop :=
  ∀ (p : Params) (l : List Instr) (s t : State),
    p.cdCmdLevel = .low → s.lines = Lines.fullIdle → l.all isDataWrite = true → requests p l s = .next t →
    ∀ x ∈ bytesBetween p s t, ∃ b, x = .wrData b

/-- PXRUN is the loop of PXW requests but for the bursts: the same bytes and the same state but for the trace (R141; decision
D14). -/
def Obligations.BulkTransferIsTheSimpleLoop : Prop :=
  ∀ (p : Params) (color : Word16) (n : RepeatCount) (s : State),
    p.cdCmdLevel = .low → s.lines = Lines.fullIdle → s.dir = .write →
    ∃ t u, request p (.pxrun color n) s = .next t ∧
      requests p (List.replicate n.toNat (.pxw color)) s = .next u ∧
      bytesBetween p s t = bytesBetween p s u ∧ t = { u with trace := t.trace }

/-! ## The belief -/

/-- At reset the belief claims nothing (R28, R170), whatever the end row is then, and nothing has been programmed in the model's
sense (assumption 13). For every parameter set. -/
def Obligations.ResetBeliefIsTrue : Prop := ∀ (p : Params) (row0 : Word16), BeliefTrue p row0 State.reset

/-- Every request keeps the state quiescent and the belief true of what has been sent, whatever raw requests the caller mixes in
(R170, derived in the spec; R137, decision D16): in DefaultLR and CustomLR the end column last programmed is the one `win`
claims, and in DefaultLR the end row is `YMAX`. `row0` is the end row as the block left reset. Assumption (c) of R170 is needed
where the spec says so, in RSTFW, which claims the default and does not send the end row (R168, conflict C8): there the end row
must be `YMAX` before. SETPX needs it nowhere (decision D22). For every parameter set whose column, row and pixel-write-start
commands differ, and with CD low for a command. What has been programmed is read from the block's own bytes (assumption 13),
where parameter lists that are not of R161's shape program only the bounds they complete (assumption 20), and data before the
first command of a run program nothing (assumption 23). -/
def Obligations.RequestKeepsBeliefTrue : Prop :=
  ∀ (p : Params) (row0 : Word16) (i : Instr) (s t : State),
    p.cdCmdLevel = .low → p.opCaset ≠ p.opPaset → p.opCaset ≠ p.opRamwr → p.opPaset ≠ p.opRamwr →
    Quiescent s → BeliefTrue p row0 s →
    (i = .rstfw → ∀ d : Byte, RowAtDefault p row0 (programmed p d s)) →
    request p i s = .next t → Quiescent t ∧ BeliefTrue p row0 t

/-- A SETPX from Unknown or CustomLR programs both default end bounds, without any assumption about the end row (R163, R170;
decision D22; assumptions 13, 20, 23). -/
def Obligations.LowerRightResetProgramsBothBounds : Prop :=
  ∀ (p : Params) (row0 x y : Word16) (s t : State) (d : Byte),
    p.cdCmdLevel = .low → p.opCaset ≠ p.opPaset → s.lines = Lines.fullIdle → BeliefTrue p row0 s →
    s.win ≠ .defaultLR → request p (.setpx x y) s = .next t →
    (programmed p d t).endCol = some p.xmax ∧ (programmed p d t).endRow = some p.ymax ∧
    (programmed p d t).startCol = some x ∧ (programmed p d t).startRow = some y

/-- SETWIN, RSTFW and SETPX in DefaultLR never program the end row (R171; decision D22; assumptions 13, 20, 23). The second part says it of
every request: only the lower-right reset of a SETPX, and data the caller writes outside a stream after a command of its own
choice (R137, R217), can change the end row last programmed; so assumption (c) of R170 is kept by all others. -/
def Obligations.OnlyResetOrRawDataProgramsEndRow : Prop :=
  ∀ (p : Params) (row0 : Word16) (i : Instr) (s t : State) (d : Byte),
    p.cdCmdLevel = .low → p.opCaset ≠ p.opPaset → s.lines = Lines.fullIdle → BeliefTrue p row0 s →
    request p i s = .next t →
    (((∃ x1 y1 x2 y2, i = .setwin x1 y1 x2 y2) ∨ i = .rstfw ∨ (s.win = .defaultLR ∧ ∃ x y, i = .setpx x y)) →
      (programmed p d t).endRow = (programmed p d s).endRow) ∧
    (p.opPaset ≠ p.opRamwr → Quiescent s →
      ¬ (s.win ≠ .defaultLR ∧ ∃ x y, i = .setpx x y) → ¬ (s.mode = .idle ∧ isDataWrite i = true) →
      (programmed p d t).endRow = (programmed p d s).endRow)
end

