-- ==== Sys2Proof/Laws/Decode.lean ====
section
/-! SUPPORT. The fields of a packed word, the bytes of a joined word, and the opcode map read backwards. -/

namespace Sys2Proof

/-! ## Bit by bit -/

theorem getLsbD_packWord (op : Byte) (a b c d : Word16) (i : Nat) : (packWord op a b c d).getLsbD i =
    if i < 16 then d.getLsbD i
    else if i < 32 then c.getLsbD (i - 16)
    else if i < 48 then b.getLsbD (i - 32)
    else if i < 64 then a.getLsbD (i - 48)
    else op.getLsbD (i - 64) := by
  simp only [packWord, BitVec.getLsbD_append]
  split_ifs <;> first | omega | rfl

theorem getLsbD_joinBytes (hi lo : Byte) (i : Nat) :
    (joinBytes hi lo).getLsbD i = if i < 8 then lo.getLsbD i else hi.getLsbD (i - 8) := by
  simp only [joinBytes, BitVec.getLsbD_append]

theorem getLsbD_joinCount (b c : Word16) (i : Nat) :
    (joinCount b c).getLsbD i = if i < 16 then c.getLsbD i else b.getLsbD (i - 16) := by
  simp only [joinCount, BitVec.getLsbD_append]

/-! ## Fields of a packed word -/

section
variable (op : Byte) (a b c d : Word16)

@[simp] theorem opField_packWord : opField (packWord op a b c d) = op := by
  ext i hi
  simp only [opField, BitVec.getElem_extractLsb', getLsbD_packWord]
  split_ifs <;> first | omega | simp [hi]

@[simp] theorem fieldA_packWord : fieldA (packWord op a b c d) = a := by
  ext i hi
  simp only [fieldA, BitVec.getElem_extractLsb', getLsbD_packWord]
  split_ifs <;> first | omega | simp [hi]

@[simp] theorem fieldB_packWord : fieldB (packWord op a b c d) = b := by
  ext i hi
  simp only [fieldB, BitVec.getElem_extractLsb', getLsbD_packWord]
  split_ifs <;> first | omega | simp [hi]

@[simp] theorem fieldC_packWord : fieldC (packWord op a b c d) = c := by
  ext i hi
  simp only [fieldC, BitVec.getElem_extractLsb', getLsbD_packWord]
  split_ifs <;> first | omega | simp [hi]

@[simp] theorem fieldD_packWord : fieldD (packWord op a b c d) = d := by
  ext i hi
  simp only [fieldD, BitVec.getElem_extractLsb', getLsbD_packWord]
  split_ifs <;> first | omega | simp [hi]

theorem packWord_and (op' : Byte) (a' b' c' d' : Word16) :
    packWord op a b c d &&& packWord op' a' b' c' d'
      = packWord (op &&& op') (a &&& a') (b &&& b') (c &&& c') (d &&& d') := by
  apply BitVec.eq_of_getLsbD_eq
  intro i hi
  simp only [BitVec.getLsbD_and, getLsbD_packWord]
  split_ifs <;> rfl

end

/-- A request word is its five fields (R81). -/
theorem packWord_fields (w : RequestWord) : packWord (opField w) (fieldA w) (fieldB w) (fieldC w) (fieldD w) = w := by
  apply BitVec.eq_of_getLsbD_eq
  intro i hi
  simp only [getLsbD_packWord, opField, fieldA, fieldB, fieldC, fieldD, BitVec.getLsbD_extractLsb']
  split_ifs <;> rw [decide_eq_true (by omega), Bool.true_and] <;> congr 1 <;> omega

/-! ## Bytes and halves -/

@[simp] theorem joinBytes_hiByte_loByte (v : Word16) : joinBytes (hiByte v) (loByte v) = v := by
  apply BitVec.eq_of_getLsbD_eq
  intro i hi
  rw [getLsbD_joinBytes]
  split_ifs with h
  · simp [loByte, h]
  · simp [hiByte, show i - 8 < 8 by omega, show 8 + (i - 8) = i by omega]

@[simp] theorem loByte_joinBytes (hi lo : Byte) : loByte (joinBytes hi lo) = lo := by
  ext i h
  simp [loByte, getLsbD_joinBytes, h]

@[simp] theorem hiByte_joinBytes (hi lo : Byte) : hiByte (joinBytes hi lo) = hi := by
  ext i h
  simp [hiByte, getLsbD_joinBytes, h]

@[simp] theorem loByte_zext16 (v : Byte) : loByte (zext16 v) = v := by
  ext i h
  simp [loByte, zext16, h, show i < 16 by omega]

@[simp] theorem joinCount_hiHalf_loHalf (n : RepeatCount) : joinCount (hiHalf n) (loHalf n) = n := by
  apply BitVec.eq_of_getLsbD_eq
  intro i hi
  rw [getLsbD_joinCount]
  split_ifs with h
  · simp [loHalf, h]
  · simp [hiHalf, show i - 16 < 16 by omega, show 16 + (i - 16) = i by omega]

@[simp] theorem hiHalf_joinCount (b c : Word16) : hiHalf (joinCount b c) = b := by
  ext i h
  simp [hiHalf, getLsbD_joinCount, h]

@[simp] theorem loHalf_joinCount (b c : Word16) : loHalf (joinCount b c) = c := by
  ext i h
  simp [loHalf, getLsbD_joinCount, h]

/-- A byte in a 16-bit field has nothing above bit 7 (R82). -/
theorem zext16_loByte (v : Word16) : zext16 (loByte v) = v &&& 0x00FF := by
  have mask : ∀ i : Fin 16, (0x00FF : Word16).getLsbD i = decide (i.1 < 8) := by decide
  apply BitVec.eq_of_getLsbD_eq
  intro i hi
  rw [BitVec.getLsbD_and, mask ⟨i, hi⟩]
  by_cases h : i < 8 <;> simp [zext16, loByte, h, hi]

/-! ## The opcode map -/

/-- The opcode map has no two equal codes, so it can be read backwards (R84). -/
@[simp] theorem ofOp_op (m : Mnemonic) : Mnemonic.ofOp m.op = some m := by
  cases m <;> rfl

/-- A code that selects a request is that request's code (R84). -/
theorem op_of_ofOp {op : Byte} {m : Mnemonic} (h : Mnemonic.ofOp op = some m) : m.op = op := by
  have := List.find?_some h
  simpa using this

end Sys2Proof
end

