-- ==== Sys2Proof/Laws/State.lean ====
section
/-! SUPPORT. One lemma per field per update of the state, so that no later proof unfolds a record update, and the same for the
lines. -/

namespace Sys2Proof.Machine

section
variable (s : State)

@[simp] theorem emit_lines (e : Event) : (emit e s).lines = s.lines := rfl
@[simp] theorem emit_dbus (e : Event) : (emit e s).dbus = s.dbus := rfl
@[simp] theorem emit_dir (e : Event) : (emit e s).dir = s.dir := rfl
@[simp] theorem emit_mode (e : Event) : (emit e s).mode = s.mode := rfl
@[simp] theorem emit_win (e : Event) : (emit e s).win = s.win := rfl
@[simp] theorem emit_inputs (e : Event) : (emit e s).inputs = s.inputs := rfl
@[simp] theorem emit_answers (e : Event) : (emit e s).answers = s.answers := rfl
@[simp] theorem emit_draws (e : Event) : (emit e s).draws = s.draws := rfl
@[simp] theorem emit_trace (e : Event) : (emit e s).trace = s.trace ++ [e] := rfl
@[simp] theorem emit_responses (e : Event) : (emit e s).responses = s.responses := rfl

@[simp] theorem setLine_lines (l : LineName) (v : Level) : (setLine l v s).lines = s.lines.set l v := rfl
@[simp] theorem setLine_dbus (l : LineName) (v : Level) : (setLine l v s).dbus = s.dbus := rfl
@[simp] theorem setLine_dir (l : LineName) (v : Level) : (setLine l v s).dir = s.dir := rfl
@[simp] theorem setLine_mode (l : LineName) (v : Level) : (setLine l v s).mode = s.mode := rfl
@[simp] theorem setLine_win (l : LineName) (v : Level) : (setLine l v s).win = s.win := rfl
@[simp] theorem setLine_inputs (l : LineName) (v : Level) : (setLine l v s).inputs = s.inputs := rfl
@[simp] theorem setLine_answers (l : LineName) (v : Level) : (setLine l v s).answers = s.answers := rfl
@[simp] theorem setLine_draws (l : LineName) (v : Level) : (setLine l v s).draws = s.draws := rfl
@[simp] theorem setLine_trace (l : LineName) (v : Level) : (setLine l v s).trace = s.trace ++ [.line l v] := rfl
@[simp] theorem setLine_responses (l : LineName) (v : Level) : (setLine l v s).responses = s.responses := rfl

@[simp] theorem driveBus_lines (b : Byte) : (driveBus b s).lines = s.lines := rfl
@[simp] theorem driveBus_dbus (b : Byte) : (driveBus b s).dbus = b := rfl
@[simp] theorem driveBus_dir (b : Byte) : (driveBus b s).dir = s.dir := rfl
@[simp] theorem driveBus_mode (b : Byte) : (driveBus b s).mode = s.mode := rfl
@[simp] theorem driveBus_win (b : Byte) : (driveBus b s).win = s.win := rfl
@[simp] theorem driveBus_inputs (b : Byte) : (driveBus b s).inputs = s.inputs := rfl
@[simp] theorem driveBus_answers (b : Byte) : (driveBus b s).answers = s.answers := rfl
@[simp] theorem driveBus_draws (b : Byte) : (driveBus b s).draws = s.draws := rfl
@[simp] theorem driveBus_trace (b : Byte) : (driveBus b s).trace = s.trace ++ [.drive b] := rfl
@[simp] theorem driveBus_responses (b : Byte) : (driveBus b s).responses = s.responses := rfl

@[simp] theorem turnBus_lines (m : Dir) : (turnBus m s).lines = s.lines := rfl
@[simp] theorem turnBus_dbus (m : Dir) : (turnBus m s).dbus = s.dbus := rfl
@[simp] theorem turnBus_dir (m : Dir) : (turnBus m s).dir = m := rfl
@[simp] theorem turnBus_mode (m : Dir) : (turnBus m s).mode = s.mode := rfl
@[simp] theorem turnBus_win (m : Dir) : (turnBus m s).win = s.win := rfl
@[simp] theorem turnBus_inputs (m : Dir) : (turnBus m s).inputs = s.inputs := rfl
@[simp] theorem turnBus_answers (m : Dir) : (turnBus m s).answers = s.answers := rfl
@[simp] theorem turnBus_draws (m : Dir) : (turnBus m s).draws = s.draws := rfl
@[simp] theorem turnBus_trace (m : Dir) : (turnBus m s).trace = s.trace ++ [.dir m] := rfl
@[simp] theorem turnBus_responses (m : Dir) : (turnBus m s).responses = s.responses := rfl

@[simp] theorem wait_lines (n : Nat) : (wait n s).lines = s.lines := rfl
@[simp] theorem wait_dbus (n : Nat) : (wait n s).dbus = s.dbus := rfl
@[simp] theorem wait_dir (n : Nat) : (wait n s).dir = s.dir := rfl
@[simp] theorem wait_mode (n : Nat) : (wait n s).mode = s.mode := rfl
@[simp] theorem wait_win (n : Nat) : (wait n s).win = s.win := rfl
@[simp] theorem wait_inputs (n : Nat) : (wait n s).inputs = s.inputs := rfl
@[simp] theorem wait_answers (n : Nat) : (wait n s).answers = s.answers := rfl
@[simp] theorem wait_draws (n : Nat) : (wait n s).draws = s.draws := rfl
@[simp] theorem wait_trace (n : Nat) : (wait n s).trace = s.trace ++ [.delay n] := rfl
@[simp] theorem wait_responses (n : Nat) : (wait n s).responses = s.responses := rfl

@[simp] theorem respond_lines (v : Word16) : (respond v s).lines = s.lines := rfl
@[simp] theorem respond_dbus (v : Word16) : (respond v s).dbus = s.dbus := rfl
@[simp] theorem respond_dir (v : Word16) : (respond v s).dir = s.dir := rfl
@[simp] theorem respond_mode (v : Word16) : (respond v s).mode = s.mode := rfl
@[simp] theorem respond_win (v : Word16) : (respond v s).win = s.win := rfl
@[simp] theorem respond_inputs (v : Word16) : (respond v s).inputs = s.inputs := rfl
@[simp] theorem respond_answers (v : Word16) : (respond v s).answers = s.answers := rfl
@[simp] theorem respond_draws (v : Word16) : (respond v s).draws = s.draws := rfl
@[simp] theorem respond_trace (v : Word16) : (respond v s).trace = s.trace := rfl
@[simp] theorem respond_responses (v : Word16) : (respond v s).responses = s.responses ++ [v] := rfl

@[simp] theorem setMode_lines (m : Mode) : (setMode m s).lines = s.lines := rfl
@[simp] theorem setMode_dbus (m : Mode) : (setMode m s).dbus = s.dbus := rfl
@[simp] theorem setMode_dir (m : Mode) : (setMode m s).dir = s.dir := rfl
@[simp] theorem setMode_mode (m : Mode) : (setMode m s).mode = m := rfl
@[simp] theorem setMode_win (m : Mode) : (setMode m s).win = s.win := rfl
@[simp] theorem setMode_inputs (m : Mode) : (setMode m s).inputs = s.inputs := rfl
@[simp] theorem setMode_answers (m : Mode) : (setMode m s).answers = s.answers := rfl
@[simp] theorem setMode_draws (m : Mode) : (setMode m s).draws = s.draws := rfl
@[simp] theorem setMode_trace (m : Mode) : (setMode m s).trace = s.trace := rfl
@[simp] theorem setMode_responses (m : Mode) : (setMode m s).responses = s.responses := rfl

@[simp] theorem setWin_lines (w : Win) : (setWin w s).lines = s.lines := rfl
@[simp] theorem setWin_dbus (w : Win) : (setWin w s).dbus = s.dbus := rfl
@[simp] theorem setWin_dir (w : Win) : (setWin w s).dir = s.dir := rfl
@[simp] theorem setWin_mode (w : Win) : (setWin w s).mode = s.mode := rfl
@[simp] theorem setWin_win (w : Win) : (setWin w s).win = w := rfl
@[simp] theorem setWin_inputs (w : Win) : (setWin w s).inputs = s.inputs := rfl
@[simp] theorem setWin_answers (w : Win) : (setWin w s).answers = s.answers := rfl
@[simp] theorem setWin_draws (w : Win) : (setWin w s).draws = s.draws := rfl
@[simp] theorem setWin_trace (w : Win) : (setWin w s).trace = s.trace := rfl
@[simp] theorem setWin_responses (w : Win) : (setWin w s).responses = s.responses := rfl

end

section
variable (v : Level) (ls : Lines)

@[simp] theorem Lines.set_cs : ls.set .cs v = { ls with cs := v } := rfl
@[simp] theorem Lines.set_cd : ls.set .cd v = { ls with cd := v } := rfl
@[simp] theorem Lines.set_wr : ls.set .wr v = { ls with wr := v } := rfl
@[simp] theorem Lines.set_rd : ls.set .rd v = { ls with rd := v } := rfl
@[simp] theorem Lines.set_rst : ls.set .rst v = { ls with rst := v } := rfl

end

@[simp] theorem Level.other_other (v : Level) : v.other.other = v := by cases v <;> rfl

@[simp] theorem Level.other_ne (v : Level) : v.other ≠ v := by cases v <;> simp [Level.other]

theorem dataLevel_ne_cdCmdLevel (p : Params) : p.dataLevel ≠ p.cdCmdLevel := Level.other_ne _

end Sys2Proof.Machine
end

