-- ==== Sys2Proof/Laws/Ops.lean ====
section
/-! SUPPORT. For each shared operation one equation that says all it does: the events it adds and the fields it writes. Later
proofs cite these instead of unfolding the operations. -/

namespace Sys2Proof.Machine

/-! ## The events of the micro-operations, for any parameters -/

/-- The optional write pulse delay. -/
def pulseEvents (p : Params) : List Event := if 0 < p.tWrPulse then [.delay p.tWrPulse] else []

/-- One write strobe. -/
def strobeEvents (p : Params) : List Event := .line .wr .low :: (pulseEvents p ++ [.line .wr .high])

/-- One byte written. -/
def writeEvents (p : Params) (b : Byte) : List Event := .drive b :: strobeEvents p

/-- One byte read. -/
def readEvents (p : Params) (v : Byte) : List Event :=
  [.line .rd .low, .delay p.tRdSettle, .sample v, .line .rd .high]

/-- A command byte. -/
def commandEvents (p : Params) (b : Byte) : List Event :=
  .line .cd p.cdCmdLevel :: (writeEvents p b ++ [.line .cd p.dataLevel])

/-- A data pair. -/
def pairEvents (p : Params) (hi lo : Byte) : List Event :=
  .line .cd p.dataLevel :: (writeEvents p hi ++ writeEvents p lo)

/-- The fast transfer. -/
def fastEvents (p : Params) (b : Byte) : List Event :=
  .line .cd p.dataLevel :: .drive b :: (strobeEvents p ++ strobeEvents p)

/-- A 16-bit value, high byte first. -/
def wordEvents (p : Params) (v : Word16) : List Event := pairEvents p (hiByte v) (loByte v)

/-- A window command with its start bound. -/
def startEvents (p : Params) (opcode : Byte) (v : Word16) : List Event := commandEvents p opcode ++ wordEvents p v

/-- A window command with both bounds. -/
def rangeEvents (p : Params) (opcode : Byte) (v1 v2 : Word16) : List Event :=
  commandEvents p opcode ++ wordEvents p v1 ++ wordEvents p v2

/-- The lower-right reset. -/
def lrResetEvents (p : Params) : List Event :=
  rangeEvents p p.opCaset 0 p.xmax ++ rangeEvents p p.opPaset 0 p.ymax

/-! ## The operations -/

section
variable (p : Params) (s : State)

theorem wrStrobe_eq : wrStrobe p s =
    { s with lines := { s.lines with wr := .high }, trace := s.trace ++ strobeEvents p } := by
  unfold wrStrobe pulseDelay strobeEvents pulseEvents
  split <;> simp [setLine, wait, emit]

theorem writeByte_eq (b : Byte) : writeByte p b s =
    { s with lines := { s.lines with wr := .high }, dbus := b, trace := s.trace ++ writeEvents p b } := by
  simp [writeByte, wrStrobe_eq, driveBus, emit, writeEvents]

theorem draw_eq : (draw s).2 = { s with answers := (draw s).2.answers, draws := (draw s).2.draws } := by
  unfold draw
  split <;> rfl

/-- The environment's byte depends on the answers and the counter alone. -/
theorem draw_congr (s' : State) (ha : s'.answers = s.answers) (hd : s'.draws = s.draws) :
    (draw s').1 = (draw s).1 ∧ (draw s').2.answers = (draw s).2.answers ∧ (draw s').2.draws = (draw s).2.draws := by
  unfold draw
  rw [ha, hd]
  split <;> simp_all

theorem readByte_eq : readByte p s = ((draw s).1,
    { (draw s).2 with
      lines := { s.lines with rd := .high }, trace := s.trace ++ readEvents p (draw s).1 }) := by
  cases ha : s.answers <;>
    simp [readByte, sample, draw, wait, rdAssert, rdRelease, setLine, emit, ha, readEvents]

theorem sendCommand_eq (b : Byte) : sendCommand p b s =
    { s with
      lines := { s.lines with cd := p.dataLevel, wr := .high }
      dbus := b
      trace := s.trace ++ commandEvents p b } := by
  simp [sendCommand, writeByte_eq, enterCommand, enterData, setLine, emit, commandEvents]

theorem sendDataPair_eq (hi lo : Byte) : sendDataPair p hi lo s =
    { s with
      lines := { s.lines with cd := p.dataLevel, wr := .high }
      dbus := lo
      trace := s.trace ++ pairEvents p hi lo } := by
  simp [sendDataPair, writeByte_eq, enterData, setLine, emit, pairEvents]

theorem sendDataFast_eq (b : Byte) : sendDataFast p b s =
    { s with
      lines := { s.lines with cd := p.dataLevel, wr := .high }
      dbus := b
      trace := s.trace ++ fastEvents p b } := by
  simp [sendDataFast, wrStrobe_eq, enterData, driveBus, setLine, emit, fastEvents]

theorem sendParam16_eq (v : Word16) : sendParam16 p v s =
    { s with
      lines := { s.lines with cd := p.dataLevel, wr := .high }
      dbus := loByte v
      trace := s.trace ++ wordEvents p v } := sendDataPair_eq p s _ _

theorem colStart_eq (x : Word16) : colStart p x s =
    { s with
      lines := { s.lines with cd := p.dataLevel, wr := .high }
      dbus := loByte x
      trace := s.trace ++ startEvents p p.opCaset x } := by
  simp [colStart, sendParam16_eq, sendCommand_eq, startEvents]

theorem rowStart_eq (y : Word16) : rowStart p y s =
    { s with
      lines := { s.lines with cd := p.dataLevel, wr := .high }
      dbus := loByte y
      trace := s.trace ++ startEvents p p.opPaset y } := by
  simp [rowStart, sendParam16_eq, sendCommand_eq, startEvents]

theorem colRange_eq (x1 x2 : Word16) : colRange p x1 x2 s =
    { s with
      lines := { s.lines with cd := p.dataLevel, wr := .high }
      dbus := loByte x2
      trace := s.trace ++ rangeEvents p p.opCaset x1 x2 } := by
  simp [colRange, sendParam16_eq, sendCommand_eq, rangeEvents]

theorem rowRange_eq (y1 y2 : Word16) : rowRange p y1 y2 s =
    { s with
      lines := { s.lines with cd := p.dataLevel, wr := .high }
      dbus := loByte y2
      trace := s.trace ++ rangeEvents p p.opPaset y1 y2 } := by
  simp [rowRange, sendParam16_eq, sendCommand_eq, rangeEvents]

theorem lrReset_eq : lrReset p s =
    { s with
      lines := { s.lines with cd := p.dataLevel, wr := .high }
      dbus := loByte p.ymax
      trace := s.trace ++ lrResetEvents p } := by
  simp [lrReset, colRange_eq, rowRange_eq, lrResetEvents]

/-- `n` data pairs: nothing for 0, and otherwise the fields of one pair and the events of `n`. -/
theorem repeatTimes_sendDataPair_eq (hi lo : Byte) (n : Nat) : repeatTimes (sendDataPair p hi lo) n s =
    { s with
      lines := if n = 0 then s.lines else { s.lines with cd := p.dataLevel, wr := .high }
      dbus := if n = 0 then s.dbus else lo
      trace := s.trace ++ (List.replicate n (pairEvents p hi lo)).flatten } := by
  induction n generalizing s with
  | zero => simp [repeatTimes]
  | succ n ih =>
    rw [repeatTimes, ih, sendDataPair_eq]
    cases n <;> simp [List.replicate_succ]

/-- A contract check that answers a next state has found the needed direction, and the request has run. -/
theorem contract_next {s : State} {m : Mnemonic} {d : Dir} {run : State → State} {t : State} :
    contract m d s run = .next t ↔ s.dir = d ∧ run s = t := by
  unfold contract
  split <;> simp_all

/-- A contract check that faults has found the other direction. -/
theorem contract_fault {s : State} {m : Mnemonic} {d : Dir} {run : State → State} {f : Fault} :
    contract m d s run = .fault f ↔ s.dir ≠ d ∧ f = .contractViolation m s.dir := by
  unfold contract
  split <;> simp_all [eq_comm]

theorem contract_not_refused {s : State} {m : Mnemonic} {d : Dir} {run : State → State} {r : Refusal} :
    contract m d s run ≠ .refused r := by
  unfold contract
  split <;> simp

theorem downgradeIfIdle_eq : downgradeIfIdle s =
    { s with win := if s.mode = .idle then .unknown else s.win } := by
  unfold downgradeIfIdle
  split <;> rfl

end

end Sys2Proof.Machine
end

