-- ==== Sys2Proof/Laws/PerInstr.lean ====
section
/-! SUPPORT. Facts proved for each request as syntax. The family EncodingShape: the word of a request carries the operation code of
its mnemonic and has zeros in the fields the table does not name (30_encoding.md R84, R85). -/

namespace Sys2Proof.Laws.EncodingShape

open Sys2Proof

/-- The word of a request has its operation code, and nothing outside the bits the table names. -/
def Statement (i : Instr) : Prop :=
  opField (encode i) = i.mnemonic.op ∧ encode i &&& i.mnemonic.usedBits = encode i

/-- The whole field is used. -/
theorem and_field (v : Word16) : v &&& 65535#16 = v := BitVec.and_allOnes

/-- The whole operation code is used. -/
theorem and_op (v : Byte) : v &&& 255#8 = v := BitVec.and_allOnes

/-- The low byte of a field is used, and holds all of a zero-extended byte. -/
theorem and_zext16 (v : Byte) : zext16 v &&& 255#16 = zext16 v := by
  have h := zext16_loByte (zext16 v)
  rw [loByte_zext16] at h
  exact h.symm

theorem setpx (x y : Word16) : Statement (.setpx x y) := by
  simp [Statement, encode, Mnemonic.usedBits, Instr.mnemonic, packWord_and, and_field, and_op]

theorem setwin (x1 y1 x2 y2 : Word16) : Statement (.setwin x1 y1 x2 y2) := by
  simp [Statement, encode, Mnemonic.usedBits, Instr.mnemonic, packWord_and, and_field, and_op]

theorem rstfw : Statement .rstfw := by
  simp [Statement, encode, Mnemonic.usedBits, Instr.mnemonic, packWord_and, and_op]

theorem beginpx : Statement .beginpx := by
  simp [Statement, encode, Mnemonic.usedBits, Instr.mnemonic, packWord_and, and_op]

theorem pxw (color : Word16) : Statement (.pxw color) := by
  simp [Statement, encode, Mnemonic.usedBits, Instr.mnemonic, packWord_and, and_field, and_op]

theorem pxrun (color : Word16) (n : RepeatCount) : Statement (.pxrun color n) := by
  simp [Statement, encode, Mnemonic.usedBits, Instr.mnemonic, packWord_and, and_field, and_op]

theorem beginrd : Statement .beginrd := by
  simp [Statement, encode, Mnemonic.usedBits, Instr.mnemonic, packWord_and, and_op]

theorem rdpx : Statement .rdpx := by
  simp [Statement, encode, Mnemonic.usedBits, Instr.mnemonic, packWord_and, and_op]

theorem endrd : Statement .endrd := by
  simp [Statement, encode, Mnemonic.usedBits, Instr.mnemonic, packWord_and, and_op]

theorem cmd (opcode : Byte) : Statement (.cmd opcode) := by
  simp [Statement, encode, Mnemonic.usedBits, Instr.mnemonic, packWord_and, and_zext16, and_op]

theorem dat2 (hi lo : Byte) : Statement (.dat2 hi lo) := by
  simp [Statement, encode, Mnemonic.usedBits, Instr.mnemonic, packWord_and, and_field, and_op]

theorem datf (byte : Byte) : Statement (.datf byte) := by
  simp [Statement, encode, Mnemonic.usedBits, Instr.mnemonic, packWord_and, and_zext16, and_op]

theorem wrb (value : Byte) : Statement (.wrb value) := by
  simp [Statement, encode, Mnemonic.usedBits, Instr.mnemonic, packWord_and, and_zext16, and_op]

theorem rdb : Statement .rdb := by
  simp [Statement, encode, Mnemonic.usedBits, Instr.mnemonic, packWord_and, and_op]

end Sys2Proof.Laws.EncodingShape
end

