-- ==== Sys2Proof/Laws/Projection.lean ====
section
/-! SUPPORT. The projection and the monitor over traces joined together, and what the micro-operations' events project to. -/

namespace Sys2Proof.Machine

open Sys2Proof.Safety

theorem Scan.afterAll_append (c : Scan) (es fs : List Event) : c.afterAll (es ++ fs) = (c.afterAll es).afterAll fs := by
  induction es generalizing c with
  | nil => rfl
  | cons e es ih => exact ih _

theorem busFrom_append (p : Params) (c : Scan) (es fs : List Event) :
    busFrom p c (es ++ fs) = busFrom p c es ++ busFrom p (c.afterAll es) fs := by
  induction es generalizing c with
  | nil => rfl
  | cons e es ih => simp [busFrom, Scan.afterAll, ih]

theorem bytesFrom_append (p : Params) (c : Scan) (es fs : List Event) :
    bytesFrom p c (es ++ fs) = bytesFrom p c es ++ bytesFrom p (c.afterAll es) fs := by
  simp [bytesFrom, busFrom_append]

theorem bytesFrom_cons (p : Params) (c : Scan) (e : Event) (es : List Event) :
    bytesFrom p c (e :: es) = (c.emits p e).filter BusTxn.movesByte ++ bytesFrom p (c.after e) es := by
  simp [bytesFrom, busFrom]

@[simp] theorem bytesFrom_nil (p : Params) (c : Scan) : bytesFrom p c [] = [] := rfl

theorem Monitor.run_append (p : Params) (m : Monitor) (es fs : List Event) :
    Monitor.run p m (es ++ fs) = (Monitor.run p m es).bind fun m' => Monitor.run p m' fs := by
  induction es generalizing m with
  | nil => rfl
  | cons e es ih =>
    simp only [List.cons_append, Monitor.run]
    split <;> simp_all

@[simp] theorem movesByte_wrCmd (b : Byte) : (BusTxn.wrCmd b).movesByte = true := rfl
@[simp] theorem movesByte_wrData (b : Byte) : (BusTxn.wrData b).movesByte = true := rfl
@[simp] theorem movesByte_rd (v : Byte) : (BusTxn.rd v).movesByte = true := rfl
@[simp] theorem movesByte_turn (m : Dir) : (BusTxn.turn m).movesByte = false := rfl
@[simp] theorem movesByte_wait (n : Nat) : (BusTxn.wait n).movesByte = false := rfl

/-! ## The events of the micro-operations -/

section
variable (p : Params) (c : Scan)

@[simp] theorem afterAll_strobeEvents :
    c.afterAll (strobeEvents p) = { c with lines := { c.lines with wr := .high } } := by
  unfold strobeEvents pulseEvents
  split <;> simp [Scan.afterAll, Scan.after]

@[simp] theorem afterAll_writeEvents (b : Byte) :
    c.afterAll (writeEvents p b) = { lines := { c.lines with wr := .high }, dbus := b } := by
  simp [writeEvents, Scan.afterAll, Scan.after]

@[simp] theorem afterAll_readEvents (v : Byte) :
    c.afterAll (readEvents p v) = { c with lines := { c.lines with rd := .high } } := by
  simp [readEvents, Scan.afterAll, Scan.after]

@[simp] theorem afterAll_commandEvents (b : Byte) :
    c.afterAll (commandEvents p b) = { lines := { c.lines with cd := p.dataLevel, wr := .high }, dbus := b } := by
  simp [commandEvents, Scan.afterAll_append, Scan.afterAll, Scan.after]

@[simp] theorem afterAll_pairEvents (hi lo : Byte) :
    c.afterAll (pairEvents p hi lo) = { lines := { c.lines with cd := p.dataLevel, wr := .high }, dbus := lo } := by
  simp [pairEvents, Scan.afterAll_append, Scan.afterAll, Scan.after]

@[simp] theorem afterAll_fastEvents (b : Byte) :
    c.afterAll (fastEvents p b) = { lines := { c.lines with cd := p.dataLevel, wr := .high }, dbus := b } := by
  simp [fastEvents, Scan.afterAll_append, Scan.afterAll, Scan.after]

@[simp] theorem afterAll_wordEvents (v : Word16) :
    c.afterAll (wordEvents p v) =
      { lines := { c.lines with cd := p.dataLevel, wr := .high }, dbus := loByte v } := by
  simp [wordEvents]

@[simp] theorem strobed_movesByte : (c.strobed p).movesByte = true := by
  unfold Scan.strobed
  split <;> rfl

/-- One write strobe moves the byte on the bus, when chip-select is low and the strobe was inactive. -/
theorem bytesFrom_strobeEvents :
    bytesFrom p c (strobeEvents p) =
      if c.lines.wr = .high ∧ c.lines.cs = .low then [c.strobed p] else [] := by
  unfold strobeEvents pulseEvents
  split <;> split <;> simp_all [bytesFrom, busFrom, Scan.emits]

theorem bytesFrom_readEvents (v : Byte) : bytesFrom p c (readEvents p v) = [.rd v] := by
  simp [bytesFrom, busFrom, readEvents, Scan.emits]

theorem bytesFrom_writeEvents (b : Byte) (hw : c.lines.wr = .high) (hc : c.lines.cs = .low) :
    bytesFrom p c (writeEvents p b) = [({ c with dbus := b } : Scan).strobed p] := by
  simp [writeEvents, bytesFrom_cons, bytesFrom_strobeEvents, Scan.emits, Scan.after, hw, hc]

theorem strobed_command (hd : c.lines.cd = p.cdCmdLevel) : c.strobed p = .wrCmd c.dbus := by
  simp [Scan.strobed, hd]

theorem strobed_data (hd : c.lines.cd = p.dataLevel) : c.strobed p = .wrData c.dbus := by
  simp [Scan.strobed, hd, dataLevel_ne_cdCmdLevel]

theorem bytesFrom_commandEvents (b : Byte) (hw : c.lines.wr = .high) (hc : c.lines.cs = .low) :
    bytesFrom p c (commandEvents p b) = [.wrCmd b] := by
  simp [commandEvents, bytesFrom_cons, bytesFrom_append, bytesFrom_writeEvents, strobed_command, Scan.emits, Scan.after,
    hw, hc]

theorem bytesFrom_pairEvents (hi lo : Byte) (hw : c.lines.wr = .high) (hc : c.lines.cs = .low) :
    bytesFrom p c (pairEvents p hi lo) = [.wrData hi, .wrData lo] := by
  simp [pairEvents, bytesFrom_cons, bytesFrom_append, bytesFrom_writeEvents, strobed_data, Scan.emits, Scan.after, hw, hc]

theorem bytesFrom_fastEvents (b : Byte) (hw : c.lines.wr = .high) (hc : c.lines.cs = .low) :
    bytesFrom p c (fastEvents p b) = [.wrData b, .wrData b] := by
  simp [fastEvents, bytesFrom_cons, bytesFrom_append, bytesFrom_strobeEvents, strobed_data, Scan.emits, Scan.after, hw, hc]

theorem bytesFrom_wordEvents (v : Word16) (hw : c.lines.wr = .high) (hc : c.lines.cs = .low) :
    bytesFrom p c (wordEvents p v) = [.wrData (hiByte v), .wrData (loByte v)] :=
  bytesFrom_pairEvents p c _ _ hw hc

end

end Sys2Proof.Machine
end

