-- ==== Sys2Proof/Laws/Requests.lean ====
section
/-! SUPPORT. What a request that completes has done, said once for all requests: `request_next` gives the whole next state by the
events of the request and the fields it writes. -/

namespace Sys2Proof.Machine

open Sys2Proof.Safety

/-- The machine's meanings are the requests at its parameters. -/
theorem exec_eq_request (i : Instr) (s : State) : exec i s = request Config.params i s := by
  cases i <;> rfl

/-- What stands between the two chip-select events of a request. -/
def bodyEvents (p : Params) (s : State) : Instr → List Event
  | .setpx x y => (if s.win = .defaultLR then [] else lrResetEvents p)
      ++ startEvents p p.opCaset x ++ startEvents p p.opPaset y
  | .setwin x1 y1 x2 _ => rangeEvents p p.opCaset x1 x2 ++ startEvents p p.opPaset y1
  | .rstfw => rangeEvents p p.opCaset 0 p.xmax ++ startEvents p p.opPaset 0
  | .beginpx => commandEvents p p.opRamwr
  | .pxw color => wordEvents p color
  | .pxrun color n => (List.replicate n.toNat (wordEvents p color)).flatten
  | .beginrd => commandEvents p p.opRamrd
      ++ [.dir .read, .line .cd p.dataLevel, .delay p.tRdSettle] ++ readEvents p (draw s).1
  | .rdpx => .line .cd p.dataLevel :: (readEvents p (draw s).1 ++ readEvents p (draw (draw s).2).1)
  | .endrd => [.dir .write]
  | .cmd opcode => commandEvents p opcode
  | .dat2 hi lo => pairEvents p hi lo
  | .datf byte => fastEvents p byte
  | .wrb value => writeEvents p value
  | .rdb => readEvents p (draw s).1

/-- The events of a request. -/
def requestEvents (p : Params) (s : State) (i : Instr) : List Event :=
  .line .cs .low :: (bodyEvents p s i ++ [.line .cs .high])

/-- The lines a request leaves. -/
def linesAfter (p : Params) (ls : Lines) : Instr → Lines
  | .rdpx => { ls with cs := .high, cd := p.dataLevel, rd := .high }
  | .rdb => { ls with cs := .high, rd := .high }
  | .endrd => { ls with cs := .high }
  | .wrb _ => { ls with cs := .high, wr := .high }
  | .beginrd => { ls with cs := .high, cd := p.dataLevel, wr := .high, rd := .high }
  | .pxrun _ n => if n.toNat = 0 then { ls with cs := .high } else { ls with cs := .high, cd := p.dataLevel, wr := .high }
  | .setpx _ _ | .setwin _ _ _ _ | .rstfw | .beginpx | .pxw _ | .cmd _ | .dat2 _ _ | .datf _ =>
    { ls with cs := .high, cd := p.dataLevel, wr := .high }

/-- The byte a request leaves on the data bus. -/
def dbusAfter (p : Params) (dbus : Byte) : Instr → Byte
  | .setpx _ y => loByte y
  | .setwin _ y1 _ _ => loByte y1
  | .rstfw => 0
  | .beginpx => p.opRamwr
  | .pxw color => loByte color
  | .pxrun color n => if n.toNat = 0 then dbus else loByte color
  | .beginrd => p.opRamrd
  | .cmd opcode => opcode
  | .dat2 _ lo => lo
  | .datf byte => byte
  | .wrb value => value
  | .rdpx | .endrd | .rdb => dbus

/-- The streaming state a request leaves (R146). -/
def modeAfter (m : Mode) : Instr → Mode
  | .setpx _ _ | .setwin _ _ _ _ | .rstfw | .cmd _ | .endrd => .idle
  | .beginpx => .pixelWrite
  | .beginrd => .pixelRead
  | .pxw _ | .pxrun _ _ | .dat2 _ _ | .datf _ | .wrb _ | .rdpx | .rdb => m

/-- The belief a request leaves (R169). -/
def winAfter (s : State) : Instr → Win
  | .setpx _ _ | .rstfw => .defaultLR
  | .setwin _ _ x2 y2 => .customLR x2 y2
  | .cmd _ => .unknown
  | .pxrun _ n => if s.mode = .idle ∧ n.toNat ≠ 0 then .unknown else s.win
  | .pxw _ | .dat2 _ _ | .datf _ | .wrb _ => if s.mode = .idle then .unknown else s.win
  | .beginpx | .beginrd | .rdpx | .rdb | .endrd => s.win

/-- The state once the environment's bytes of a request have been taken. -/
def drawn (s : State) : Instr → State
  | .beginrd | .rdb => (draw s).2
  | .rdpx => (draw (draw s).2).2
  | .setpx _ _ | .setwin _ _ _ _ | .rstfw | .beginpx | .pxw _ | .pxrun _ _ | .endrd | .cmd _ | .dat2 _ _ | .datf _
  | .wrb _ => s

/-- The response of a request (R83). -/
def responseOf (s : State) : Instr → List Word16
  | .rdpx => [joinBytes (draw s).1 (draw (draw s).2).1]
  | .rdb => [zext16 (draw s).1]
  | .setpx _ _ | .setwin _ _ _ _ | .rstfw | .beginpx | .pxw _ | .pxrun _ _ | .beginrd | .endrd | .cmd _ | .dat2 _ _
  | .datf _ | .wrb _ => []

/-- The state after a request that fits the Bus Direction. -/
def stateAfter (p : Params) (i : Instr) (s : State) : State where
  lines := linesAfter p s.lines i
  dbus := dbusAfter p s.dbus i
  dir := dirAfter i s.dir
  mode := modeAfter s.mode i
  win := winAfter s i
  inputs := s.inputs
  answers := (drawn s i).answers
  draws := (drawn s i).draws
  trace := s.trace ++ requestEvents p s i
  responses := s.responses ++ responseOf s i

/-- Equal effects under one contract check. -/
theorem contract_congr {m : Mnemonic} {d : Dir} {s : State} {f g : State → State} (h : s.dir = d → f s = g s) :
    contract m d s f = contract m d s g := by
  unfold contract
  split
  · rw [h ‹_›]
  · rfl

/-- Every request is its contract check and then `stateAfter`: the one lemma that unfolds the requests. -/
theorem request_eq (p : Params) (i : Instr) (s : State) :
    request p i s = contract i.mnemonic (neededDir i) s (stateAfter p i) := by
  cases i <;>
    simp only [request, reqSetpx, reqSetwin, reqRstfw, reqBeginpx, reqPxw, reqPxrun, reqBeginrd, reqRdpx, reqEndrd, reqCmd,
      reqDat2, reqDatf, reqWrb, reqRdb, Instr.mnemonic, neededDir] <;>
    apply contract_congr <;> intro hd
  case setpx =>
    simp only [burst, lrResetIfNeeded]
    by_cases hw : s.win = .defaultLR <;>
      simp [lrReset_eq, colStart_eq, rowStart_eq, csAssert, csRelease, setLine, emit, setMode, setWin, hw, hd,
        stateAfter, requestEvents, bodyEvents, linesAfter, dbusAfter, dirAfter, modeAfter, winAfter, drawn, responseOf]
  case setwin | rstfw =>
    simp only [burst]
    simp [colRange_eq, rowStart_eq, csAssert, csRelease, setLine, emit, setMode, setWin, hd,
      stateAfter, requestEvents, bodyEvents, linesAfter, dbusAfter, dirAfter, modeAfter, winAfter, drawn, responseOf]
    try decide
  case pxrun color n =>
    by_cases hn : n.toNat = 0 <;>
      simp [burst, repeatTimes_sendDataPair_eq, downgradeIfIdle_eq, Nat.pos_iff_ne_zero, hn, csAssert, csRelease, setLine, emit, hd, wordEvents,
        stateAfter, requestEvents, bodyEvents, linesAfter, dbusAfter, dirAfter, modeAfter, winAfter, drawn, responseOf]
  case beginrd | rdpx | rdb =>
    rcases ha : s.answers with _ | ⟨v, _ | ⟨w, rest⟩⟩ <;>
      simp [draw, ha, readByte_eq, csAssert, csRelease, setLine, emit, setMode, respond, sendCommand_eq, turnBus, wait,
        enterRead, hd, stateAfter, requestEvents, bodyEvents, linesAfter, dbusAfter, dirAfter, modeAfter, winAfter, drawn,
        responseOf]
  all_goals
    simp [burst, csAssert, csRelease, setLine, emit, setMode, setWin, turnBus, writeByte_eq, sendCommand_eq,
      sendDataPair_eq, sendDataFast_eq, downgradeIfIdle_eq, wordEvents, hd,
      stateAfter, requestEvents, bodyEvents, linesAfter, dbusAfter, dirAfter, modeAfter, winAfter, drawn, responseOf]

/-- A request that completes had the Bus Direction it needs, and leaves `stateAfter`. -/
theorem request_next {p : Params} {i : Instr} {s t : State} :
    request p i s = .next t ↔ s.dir = neededDir i ∧ stateAfter p i s = t := by
  rw [request_eq, contract_next]

/-- A request that faults is a contract violation. -/
theorem request_fault {p : Params} {i : Instr} {s : State} {f : Fault} :
    request p i s = .fault f ↔ s.dir ≠ neededDir i ∧ f = .contractViolation i.mnemonic s.dir := by
  rw [request_eq, contract_fault]

/-- No request is refused. -/
theorem request_not_refused {p : Params} {i : Instr} {s : State} {r : Refusal} : request p i s ≠ .refused r := by
  rw [request_eq]
  exact contract_not_refused

/-- What waits at the request port has no part in a request. -/
theorem stateAfter_inputs (p : Params) (i : Instr) (s : State) (q : List Input) :
    stateAfter p i { s with inputs := q } = { stateAfter p i s with inputs := q } := by
  rcases ha : s.answers with _ | ⟨v, _ | ⟨w, rest⟩⟩ <;> cases i <;>
    simp [stateAfter, drawn, draw, winAfter, responseOf, requestEvents, bodyEvents, ha]

/-- The events a completed request has added. -/
@[simp] theorem newEvents_stateAfter (p : Params) (i : Instr) (s : State) :
    newEvents s (stateAfter p i s) = requestEvents p s i := by
  simp [newEvents, stateAfter]

end Sys2Proof.Machine
end

