-- ==== Sys2Proof/Laws/Traces.lean ====
section
/-! SUPPORT. What the events of a whole request do to a scan and to the monitor, and which bytes they move. -/

namespace Sys2Proof.Machine

open Sys2Proof.Safety

/-! ## Scanning a request -/

@[simp] theorem Scan.afterAll_nil (c : Scan) : c.afterAll [] = c := rfl

@[simp] theorem Scan.afterAll_cons (c : Scan) (e : Event) (es : List Event) :
    c.afterAll (e :: es) = (c.after e).afterAll es := rfl

section
variable (p : Params)

/-- `n` data pairs leave the scan as one does, or as it was for 0. -/
theorem afterAll_replicate_wordEvents (v : Word16) (n : Nat) (c : Scan) :
    c.afterAll (List.replicate n (wordEvents p v)).flatten =
      if n = 0 then c else { lines := { c.lines with cd := p.dataLevel, wr := .high }, dbus := loByte v } := by
  induction n generalizing c with
  | zero => rfl
  | succ n ih =>
    simp only [List.replicate_succ, List.flatten_cons, Scan.afterAll_append, ih, afterAll_wordEvents]
    cases n <;> simp

/-- `n` data pairs move their `2 * n` bytes. -/
theorem bytesFrom_replicate_wordEvents (v : Word16) (n : Nat) (c : Scan) (hw : c.lines.wr = .high)
    (hc : c.lines.cs = .low) :
    bytesFrom p c (List.replicate n (wordEvents p v)).flatten =
      (List.replicate n [BusTxn.wrData (hiByte v), .wrData (loByte v)]).flatten := by
  induction n generalizing c with
  | zero => rfl
  | succ n ih =>
    simp only [List.replicate_succ, List.flatten_cons, bytesFrom_append, bytesFrom_wordEvents p c v hw hc,
      afterAll_wordEvents]
    exact congrArg _ (ih _ rfl hc)

/-- The events of a request account for the lines and the byte it leaves. -/
theorem afterAll_requestEvents (s : State) (i : Instr) (c : Scan) :
    c.afterAll (requestEvents p s i) = ⟨linesAfter p c.lines i, dbusAfter p c.dbus i⟩ := by
  cases i
  case setpx =>
    by_cases hw : s.win = .defaultLR <;>
      simp [requestEvents, bodyEvents, Scan.afterAll_append, Scan.after, startEvents, rangeEvents, lrResetEvents,
        linesAfter, dbusAfter, hw]
  case pxrun color n =>
    by_cases hn : n.toNat = 0 <;>
      simp [requestEvents, bodyEvents, Scan.afterAll_append, Scan.after, afterAll_replicate_wordEvents, linesAfter,
        dbusAfter, hn]
  all_goals
    simp [requestEvents, bodyEvents, Scan.afterAll_append, Scan.after, startEvents, rangeEvents, linesAfter, dbusAfter]
    try rfl

/-! ## The bytes of a request -/

/-- The bytes a request moves (R56, R162 and the request rules), when CD has the data level before it. -/
def requestBytes (s : State) : Instr → List BusTxn
  | .setpx x y =>
    (if s.win = .defaultLR then []
      else [.wrCmd p.opCaset, .wrData 0, .wrData 0, .wrData (hiByte p.xmax), .wrData (loByte p.xmax),
        .wrCmd p.opPaset, .wrData 0, .wrData 0, .wrData (hiByte p.ymax), .wrData (loByte p.ymax)])
      ++ [.wrCmd p.opCaset, .wrData (hiByte x), .wrData (loByte x),
        .wrCmd p.opPaset, .wrData (hiByte y), .wrData (loByte y)]
  | .setwin x1 y1 x2 _ =>
    [.wrCmd p.opCaset, .wrData (hiByte x1), .wrData (loByte x1), .wrData (hiByte x2), .wrData (loByte x2),
      .wrCmd p.opPaset, .wrData (hiByte y1), .wrData (loByte y1)]
  | .rstfw =>
    [.wrCmd p.opCaset, .wrData 0, .wrData 0, .wrData (hiByte p.xmax), .wrData (loByte p.xmax),
      .wrCmd p.opPaset, .wrData 0, .wrData 0]
  | .beginpx => [.wrCmd p.opRamwr]
  | .pxw color => [.wrData (hiByte color), .wrData (loByte color)]
  | .pxrun color n => (List.replicate n.toNat [BusTxn.wrData (hiByte color), .wrData (loByte color)]).flatten
  | .beginrd => [.wrCmd p.opRamrd, .rd (draw s).1]
  | .rdpx => [.rd (draw s).1, .rd (draw (draw s).2).1]
  | .endrd => []
  | .cmd opcode => [.wrCmd opcode]
  | .dat2 hi lo => [.wrData hi, .wrData lo]
  | .datf byte => [.wrData byte, .wrData byte]
  | .wrb value => [.wrData value]
  | .rdb => [.rd (draw s).1]

@[simp] theorem hiByte_zero : hiByte 0#16 = 0#8 := rfl

@[simp] theorem loByte_zero : loByte 0#16 = 0#8 := rfl

/-- From a scan with WR inactive and CD at the data level, a request moves exactly its bytes. -/
theorem bytesFrom_requestEvents (s : State) (i : Instr) (c : Scan) (hw : c.lines.wr = .high)
    (hd : c.lines.cd = p.dataLevel) : bytesFrom p c (requestEvents p s i) = requestBytes p s i := by
  cases i
  case setpx =>
    by_cases h : s.win = .defaultLR <;>
      simp [requestEvents, requestBytes, bodyEvents, bytesFrom_append, bytesFrom_cons, Scan.emits, Scan.after, startEvents,
        rangeEvents, lrResetEvents, bytesFrom_commandEvents, bytesFrom_wordEvents, hw, h]
  case pxrun color n =>
    simp [requestEvents, requestBytes, bodyEvents, bytesFrom_append, bytesFrom_cons, Scan.emits, Scan.after,
      bytesFrom_replicate_wordEvents, hw]
  all_goals
    simp [requestEvents, requestBytes, bodyEvents, bytesFrom_append, bytesFrom_cons, Scan.emits, Scan.after, startEvents,
      rangeEvents, bytesFrom_commandEvents, bytesFrom_wordEvents, bytesFrom_pairEvents, bytesFrom_fastEvents,
      bytesFrom_writeEvents, bytesFrom_readEvents, strobed_data, hw, hd]

/-! ## The monitor over the micro-operations -/

section
variable (m : Monitor) (es : List Event) (hp : m.phase = .between) (hc : m.lines.cs = .low)
include hp hc

theorem monitor_strobeEvents (hd : m.dir = .write) :
    Monitor.run p m (strobeEvents p ++ es) = Monitor.run p { m with lines := { m.lines with wr := .high } } es := by
  obtain ⟨l, d, ph⟩ := m
  simp only at hp hd hc
  subst hp hd
  unfold strobeEvents pulseEvents
  split <;> simp [Monitor.run, Monitor.event, hc]

theorem monitor_readEvents (v : Byte) (hd : m.dir = .read) :
    Monitor.run p m (readEvents p v ++ es) = Monitor.run p { m with lines := { m.lines with rd := .high } } es := by
  obtain ⟨l, d, ph⟩ := m
  simp only at hp hd hc
  subst hp hd
  simp [Monitor.run, Monitor.event, hc, readEvents]

theorem monitor_writeEvents (b : Byte) (hd : m.dir = .write) :
    Monitor.run p m (writeEvents p b ++ es) = Monitor.run p { m with lines := { m.lines with wr := .high } } es := by
  obtain ⟨l, d, ph⟩ := m
  simp only at hp hd hc
  subst hp hd
  simp only [writeEvents, List.cons_append, Monitor.run, Monitor.event]
  simp [monitor_strobeEvents, hc]

theorem monitor_pairEvents (hi lo : Byte) (hd : m.dir = .write) :
    Monitor.run p m (pairEvents p hi lo ++ es) =
      Monitor.run p { m with lines := { m.lines with cd := p.dataLevel, wr := .high } } es := by
  obtain ⟨l, d, ph⟩ := m
  simp only at hp hd hc
  subst hp hd
  simp only [pairEvents, List.cons_append, Monitor.run, Monitor.event, List.append_assoc]
  simp [monitor_writeEvents, hc]

theorem monitor_commandEvents (b : Byte) (hd : m.dir = .write) :
    Monitor.run p m (commandEvents p b ++ es) =
      Monitor.run p { m with lines := { m.lines with cd := p.dataLevel, wr := .high } } es := by
  obtain ⟨l, d, ph⟩ := m
  simp only at hp hd hc
  subst hp hd
  simp only [commandEvents, List.cons_append, Monitor.run, Monitor.event, List.append_assoc]
  simp [monitor_writeEvents, hc, Monitor.run, Monitor.event]

end

end

end Sys2Proof.Machine
end

