-- ==== Sys2Proof/Laws/Programmed.lean ====
section
/-! SUPPORT. What a request programs (Safety.lean): the bounds programmed so far depend on the bytes moved alone, and a request
extends them by its own bytes. -/

namespace Sys2Proof.Machine

open Sys2Proof.Safety

section
variable (p : Params) (o : Programmed)

theorem txns_append (ts us : List BusTxn) : o.txns p (ts ++ us) = (o.txns p ts).txns p us := List.foldl_append

@[simp] theorem txns_nil : o.txns p [] = o := rfl

@[simp] theorem txns_cons (t : BusTxn) (ts : List BusTxn) : o.txns p (t :: ts) = (o.txn p t).txns p ts := rfl

/-- Waits and turns program nothing. -/
theorem txns_filter (ts : List BusTxn) : o.txns p (ts.filter BusTxn.movesByte) = o.txns p ts := by
  induction ts generalizing o with
  | nil => rfl
  | cons t ts ih => cases t <;> exact ih _

/-- A data byte leaves the command, the end column unless the command is the column command, and the end row unless it is the row
command. -/
theorem txn_wrData (b : Byte) :
    (o.txn p (.wrData b)).cmd = o.cmd ∧
    (o.cmd ≠ some p.opCaset → (o.txn p (.wrData b)).endCol = o.endCol) ∧
    (o.cmd ≠ some p.opPaset → (o.txn p (.wrData b)).endRow = o.endRow) := by
  simp only [Programmed.txn, Programmed.bound]
  split <;> (try split_ifs) <;> simp_all

/-- Data bytes under another command than the column command leave the end column. -/
theorem txns_data_endCol (ts : List BusTxn) (hd : ∀ t ∈ ts, ∃ b, t = .wrData b) (hc : o.cmd ≠ some p.opCaset) :
    (o.txns p ts).endCol = o.endCol := by
  induction ts generalizing o with
  | nil => rfl
  | cons t ts ih =>
    obtain ⟨b, rfl⟩ := hd t (by simp)
    obtain ⟨h1, h2, -⟩ := txn_wrData p o b
    exact (ih _ (fun t ht => hd t (by simp [ht])) (by rw [h1]; exact hc)).trans (h2 hc)

/-- Data bytes under another command than the row command leave the end row. -/
theorem txns_data_endRow (ts : List BusTxn) (hd : ∀ t ∈ ts, ∃ b, t = .wrData b) (hc : o.cmd ≠ some p.opPaset) :
    (o.txns p ts).endRow = o.endRow := by
  induction ts generalizing o with
  | nil => rfl
  | cons t ts ih =>
    obtain ⟨b, rfl⟩ := hd t (by simp)
    obtain ⟨h1, -, h3⟩ := txn_wrData p o b
    exact (ih _ (fun t ht => hd t (by simp [ht])) (by rw [h1]; exact hc)).trans (h3 hc)

/-- Data bytes leave the command. -/
theorem txns_data_cmd (ts : List BusTxn) (hd : ∀ t ∈ ts, ∃ b, t = .wrData b) : (o.txns p ts).cmd = o.cmd := by
  induction ts generalizing o with
  | nil => rfl
  | cons t ts ih =>
    obtain ⟨b, rfl⟩ := hd t (by simp)
    exact (ih _ fun t ht => hd t (by simp [ht])).trans (txn_wrData p o b).1

end

section
variable (p : Params) (i : Instr) (s : State) (d : Byte)

/-- A request's events account for the lines it leaves, when the trace before it accounted for those it found. -/
theorem scan_trace_stateAfter (hs : ((Scan.start d).afterAll s.trace).lines = s.lines) :
    ((Scan.start d).afterAll (stateAfter p i s).trace).lines = (stateAfter p i s).lines := by
  simp only [stateAfter]
  rw [Scan.afterAll_append, afterAll_requestEvents, hs]

/-- A request extends what has been programmed by its own bytes. -/
theorem programmed_stateAfter (hc : p.cdCmdLevel = .low) (hl : s.lines = Lines.fullIdle)
    (hs : ((Scan.start d).afterAll s.trace).lines = s.lines) :
    programmed p d (stateAfter p i s) = (programmed p d s).txns p (requestBytes p s i) := by
  have e : p.dataLevel = .high := by rw [Params.dataLevel, hc, Level.other]
  have h := bytesFrom_requestEvents p s i ((Scan.start d).afterAll s.trace) (by rw [hs, hl]; rfl) (by rw [hs, hl, e]; rfl)
  simp only [programmed, bus, stateAfter]
  rw [busFrom_append, txns_append, ← txns_filter p _ (busFrom p _ (requestEvents p s i))]
  exact congrArg _ h

/-- The requests that write data and send no command (R137) move data bytes only. -/
theorem requestBytes_data (hi : isDataWrite i = true) : ∀ t ∈ requestBytes p s i, ∃ b, t = .wrData b := by
  intro t ht
  cases i <;> first | exact absurd hi Bool.false_ne_true | skip
  case pxrun color n =>
    simp only [requestBytes, List.mem_flatten, List.mem_replicate] at ht
    obtain ⟨-, ⟨-, rfl⟩, ht⟩ := ht
    simp only [List.mem_cons, List.not_mem_nil, or_false] at ht
    rcases ht with rfl | rfl <;> exact ⟨_, rfl⟩
  all_goals
    simp only [requestBytes, List.mem_cons, List.not_mem_nil, or_false] at ht
    first
      | exact ⟨_, ht⟩
      | rcases ht with rfl | rfl <;> exact ⟨_, rfl⟩

end

end Sys2Proof.Machine
end

