-- ==== Sys2Proof/Laws/Runs.lean ====
section
/-! SUPPORT. Runs of requests: a run's trace extends the trace before it, and its events and its bytes are those of its first
request and then those of the rest. Statements about lists of requests go by induction over these. -/

namespace Sys2Proof.Machine

open Sys2Proof.Safety

section
variable (p : Params) (i : Instr) (l : List Instr) (s t : State)

/-- The scan carried over a request's events is the scan at the state the request leaves. -/
theorem scan_requestEvents : (Scan.ofState s).afterAll (requestEvents p s i) = Scan.ofState (stateAfter p i s) := by
  rw [afterAll_requestEvents]
  rfl

/-- With CD low for a command, a request brings the full idle pattern back (R108, R102). -/
theorem stateAfter_fullIdle (hc : p.cdCmdLevel = .low) (h : s.lines = Lines.fullIdle) :
    (stateAfter p i s).lines = Lines.fullIdle := by
  have e : p.dataLevel = .high := by rw [Params.dataLevel, hc, Level.other]
  cases i <;> simp [stateAfter, linesAfter, h, Lines.fullIdle, e]

/-- From the full idle pattern, with CD low for a command, a request moves exactly its bytes. -/
theorem bytesBetween_stateAfter (hc : p.cdCmdLevel = .low) (h : s.lines = Lines.fullIdle) :
    bytesBetween p s (stateAfter p i s) = requestBytes p s i := by
  have e : p.dataLevel = .high := by rw [Params.dataLevel, hc, Level.other]
  rw [bytesBetween, newEvents_stateAfter]
  apply bytesFrom_requestEvents <;> simp [Scan.ofState, h, Lines.fullIdle, e]

@[simp] theorem newEvents_self : newEvents s s = [] := by simp [newEvents]

@[simp] theorem bytesBetween_self : bytesBetween p s s = [] := by simp [bytesBetween]

variable {p i l s t}

/-- A run whose first request fits the Bus Direction goes on from the state that request leaves. -/
theorem requests_cons (hd : s.dir = neededDir i) : requests p (i :: l) s = requests p l (stateAfter p i s) := by
  simp only [requests, request_next.2 ⟨hd, rfl⟩]

/-- A run that completes had a first request that fits, and a rest that completes. -/
theorem requests_cons_next :
    requests p (i :: l) s = .next t ↔ s.dir = neededDir i ∧ requests p l (stateAfter p i s) = .next t := by
  by_cases hd : s.dir = neededDir i
  · simp [requests_cons hd, hd]
  · simp [requests, request_eq, contract, hd]

/-- A run that completes has extended the trace, and its events lead from its first state to its last. -/
theorem requests_trace (h : requests p l s = .next t) :
    t.trace = s.trace ++ newEvents s t ∧ (Scan.ofState s).afterAll (newEvents s t) = Scan.ofState t := by
  induction l generalizing s with
  | nil =>
    cases h
    simp
  | cons i l ih =>
    obtain ⟨-, h⟩ := requests_cons_next.1 h
    obtain ⟨ht, hs⟩ := ih h
    have e : newEvents s t = requestEvents p s i ++ newEvents (stateAfter p i s) t := by
      conv_lhs => rw [newEvents, ht]
      simp [stateAfter]
    constructor
    · rw [e, ht]
      simp [stateAfter, newEvents]
    · rw [e, Scan.afterAll_append, scan_requestEvents, hs]

/-- The events of a run are those of its first request and then those of the rest. -/
theorem newEvents_cons (h : requests p l (stateAfter p i s) = .next t) :
    newEvents s t = requestEvents p s i ++ newEvents (stateAfter p i s) t := by
  conv_lhs => rw [newEvents, (requests_trace h).1]
  simp [stateAfter]

/-- The bytes of a run are those of its first request and then those of the rest. -/
theorem bytesBetween_cons (h : requests p l (stateAfter p i s) = .next t) :
    bytesBetween p s t = bytesBetween p s (stateAfter p i s) ++ bytesBetween p (stateAfter p i s) t := by
  rw [bytesBetween, newEvents_cons h, bytesFrom_append, scan_requestEvents, bytesBetween, newEvents_stateAfter, bytesBetween]

end

end Sys2Proof.Machine
end

