-- ==== Sys2Proof/Machine/Widths.lean ====
section
/-! DEFINITION. The block with all thirteen parameters of 00_scope.md R5 as arguments, the widths among them, in the form R10 gives
the step: `step(params, state, request, samples) = (state', trace, response)`, or a fault or a refusal. At the spec's widths it is
the machine (`step_withWidths` of Laws/Widths.lean), and there it rests on the rules alone. At other widths the rules, which name
bits by number, are read with `BUS_W` for 8, `WORD_W` for 16, `COUNT_W` for 32 and `RQ_W` for 72, the operation code keeping its 8
bits; that reading is the model's choice (DESIGN CHOICE, assumption 9). -/

namespace Sys2Proof.Machine

/-- One call of a downstream primitive (R7), with bytes of `BUS_W` bits. -/
inductive EventOf (q : Parameters) where
  | line (l : LineName) (v : Level)
  | drive (b : BitVec q.busW)
  | sample (v : BitVec q.busW)
  | dir (m : Dir)
  | delay (n : Nat)
deriving DecidableEq, Repr

/-- The shadow belief (R28), with bounds of `WORD_W` bits. -/
inductive WinOf (q : Parameters) where
  | unknown
  | defaultLR
  | customLR (x2 y2 : BitVec q.wordW)
deriving DecidableEq, Repr

/-- The block's state proper (R24 to R28). -/
structure Block (q : Parameters) where
  lines : Lines
  dbus : BitVec q.busW
  dir : Dir
  mode : Mode
  win : WinOf q
deriving DecidableEq, Repr

/-- What one request answers (R10): the next state, the trace of the request and its response. -/
structure StepResult (q : Parameters) where
  block : Block q
  trace : List (EventOf q)
  response : Option (BitVec q.wordW)
deriving DecidableEq, Repr

/-- A request word taken apart (R81): the mnemonic of its operation code and its four operand fields. -/
structure RequestOf (q : Parameters) where
  mnemonic : Mnemonic
  a : BitVec q.wordW
  b : BitVec q.wordW
  c : BitVec q.wordW
  d : BitVec q.wordW
deriving DecidableEq, Repr

end Sys2Proof.Machine

namespace Sys2Proof

open Sys2Proof.Machine

/-! ## Operand forms (R6, R54, R81, R82) -/

section
variable (q : Parameters)

/-- The high byte of a word: `v[15:8]` (R54). -/
def Parameters.hiByte (v : BitVec q.wordW) : BitVec q.busW := v.extractLsb' q.busW q.busW

/-- The low byte of a word: `v[7:0]` (R54, R82). -/
def Parameters.loByte (v : BitVec q.wordW) : BitVec q.busW := v.extractLsb' 0 q.busW

/-- `{hi, lo}` (R144). -/
def Parameters.joinBytes (hi lo : BitVec q.busW) : BitVec q.wordW := (hi ++ lo).setWidth q.wordW

/-- The repeat count `{b, c}` (R82). -/
def Parameters.joinCount (b c : BitVec q.wordW) : BitVec q.countW := (b ++ c).setWidth q.countW

/-- The operand field `k` words above bit 0: `d`, `c`, `b`, `a` for 0 to 3 (R81). -/
def Parameters.field (k : Nat) (w : BitVec q.rqW) : BitVec q.wordW := w.extractLsb' (k * q.wordW) q.wordW

/-- The operation code, the 8 bits above the four operand fields (R81). -/
def Parameters.opField (w : BitVec q.rqW) : Byte := w.extractLsb' (4 * q.wordW) 8

/-- The request of a word, none where its operation code is reserved (R84, R86). -/
def Parameters.decode (w : BitVec q.rqW) : Option (RequestOf q) :=
  (Mnemonic.ofOp (q.opField w)).map fun m => ⟨m, q.field 3 w, q.field 2 w, q.field 1 w, q.field 0 w⟩

/-- The level of CD that means data (R106). -/
def Parameters.dataLevel : Level := q.cdCmdLevel.other

/-! ## The events of the micro-operations, in the spec's order -/

/-- `wrStrobe` (R109). -/
def Parameters.strobe : List (EventOf q) :=
  .line .wr .low :: ((if 0 < q.tWrPulse then [.delay q.tWrPulse] else []) ++ [.line .wr .high])

/-- `writeByte` (R120). -/
def Parameters.writeByte (b : BitVec q.busW) : List (EventOf q) := .drive b :: q.strobe

/-- `readByte`, where the environment answers `v` (R121). -/
def Parameters.readByte (v : BitVec q.busW) : List (EventOf q) :=
  [.line .rd .low, .delay q.tRdSettle, .sample v, .line .rd .high]

/-- `sendCommand` (R130). -/
def Parameters.sendCommand (opcode : BitVec q.busW) : List (EventOf q) :=
  .line .cd q.cdCmdLevel :: (q.writeByte opcode ++ [.line .cd q.dataLevel])

/-- `sendDataPair` (R131). -/
def Parameters.sendDataPair (hi lo : BitVec q.busW) : List (EventOf q) :=
  .line .cd q.dataLevel :: (q.writeByte hi ++ q.writeByte lo)

/-- `sendDataFast` (R132). -/
def Parameters.sendDataFast (b : BitVec q.busW) : List (EventOf q) :=
  .line .cd q.dataLevel :: .drive b :: (q.strobe ++ q.strobe)

/-- `sendParam16` (R133), also a pixel word (R139). -/
def Parameters.sendWord (v : BitVec q.wordW) : List (EventOf q) := q.sendDataPair (q.hiByte v) (q.loByte v)

/-- `colStart`, `rowStart` (R161). -/
def Parameters.sendStart (opcode : BitVec q.busW) (v : BitVec q.wordW) : List (EventOf q) :=
  q.sendCommand opcode ++ q.sendWord v

/-- `colRange`, `rowRange` (R161). -/
def Parameters.sendRange (opcode : BitVec q.busW) (v1 v2 : BitVec q.wordW) : List (EventOf q) :=
  q.sendCommand opcode ++ q.sendWord v1 ++ q.sendWord v2

/-- `lrReset` (R163). -/
def Parameters.lrReset : List (EventOf q) := q.sendRange q.opCaset 0 q.xmax ++ q.sendRange q.opPaset 0 q.ymax

end

/-! ## The requests -/

/-- The Bus Direction a request needs (R182). -/
def Mnemonic.neededDir : Mnemonic → Dir
  | .RDPX | .RDB | .ENDRD => .read
  | .SETPX | .SETWIN | .RSTFW | .BEGINPX | .PXW | .PXRUN | .BEGINRD | .CMD | .DAT2 | .DATF | .WRB => .write

end Sys2Proof

namespace Sys2Proof.Machine

/-- What a request emits inside its burst (R124, R125, R134 to R145, R164 to R168); `v0` and `v1` are what the environment answers to
its first and second `Sample` event. -/
def RequestOf.body {q : Parameters} (r : RequestOf q) (win : WinOf q) (v0 v1 : BitVec q.busW) : List (EventOf q) :=
  match r.mnemonic with
  | .SETPX => (if win = .defaultLR then [] else q.lrReset) ++ q.sendStart q.opCaset r.a ++ q.sendStart q.opPaset r.b
  | .SETWIN => q.sendRange q.opCaset r.a r.c ++ q.sendStart q.opPaset r.b
  | .RSTFW => q.sendRange q.opCaset 0 q.xmax ++ q.sendStart q.opPaset 0
  | .BEGINPX => q.sendCommand q.opRamwr
  | .PXW => q.sendWord r.a
  | .PXRUN => (List.replicate (q.joinCount r.b r.c).toNat (q.sendWord r.a)).flatten
  | .BEGINRD => q.sendCommand q.opRamrd ++ [.dir .read, .line .cd q.dataLevel, .delay q.tRdSettle] ++ q.readByte v0
  | .RDPX => .line .cd q.dataLevel :: (q.readByte v0 ++ q.readByte v1)
  | .ENDRD => [.dir .write]
  | .CMD => q.sendCommand (q.loByte r.a)
  | .DAT2 => q.sendDataPair (q.hiByte r.a) (q.loByte r.a)
  | .DATF => q.sendDataFast (q.loByte r.a)
  | .WRB => q.writeByte (q.loByte r.a)
  | .RDB => q.readByte v0

/-- The events of a request: one burst (R108). -/
def RequestOf.trace {q : Parameters} (r : RequestOf q) (win : WinOf q) (v0 v1 : BitVec q.busW) : List (EventOf q) :=
  .line .cs .low :: (r.body win v0 v1 ++ [.line .cs .high])

/-- The response of a request (R83). -/
def RequestOf.response {q : Parameters} (r : RequestOf q) (v0 v1 : BitVec q.busW) : Option (BitVec q.wordW) :=
  match r.mnemonic with
  | .RDPX => some (q.joinBytes v0 v1)
  | .RDB => some (v0.setWidth q.wordW)
  | .SETPX | .SETWIN | .RSTFW | .BEGINPX | .PXW | .PXRUN | .BEGINRD | .ENDRD | .CMD | .DAT2 | .DATF | .WRB => none

/-- The streaming state a request leaves (R146). -/
def RequestOf.mode {q : Parameters} (r : RequestOf q) (m : Mode) : Mode :=
  match r.mnemonic with
  | .SETPX | .SETWIN | .RSTFW | .CMD | .ENDRD => .idle
  | .BEGINPX => .pixelWrite
  | .BEGINRD => .pixelRead
  | .PXW | .PXRUN | .DAT2 | .DATF | .WRB | .RDPX | .RDB => m

/-- The belief a request leaves (R169, R137). -/
def RequestOf.win {q : Parameters} (r : RequestOf q) (m : Mode) (w : WinOf q) : WinOf q :=
  match r.mnemonic with
  | .SETPX | .RSTFW => .defaultLR
  | .SETWIN => .customLR r.c r.d
  | .CMD => .unknown
  | .PXRUN => if m = .idle ∧ 0 < (q.joinCount r.b r.c).toNat then .unknown else w
  | .PXW | .DAT2 | .DATF | .WRB => if m = .idle then .unknown else w
  | .BEGINPX | .BEGINRD | .RDPX | .RDB | .ENDRD => w

/-- What one event writes: `set` a line, `Drive` the data bus, `Dir` the Bus Direction (R9, R101, R25, R26). -/
def Block.after {q : Parameters} (s : Block q) : EventOf q → Block q
  | .line l v => { s with lines := s.lines.set l v }
  | .drive b => { s with dbus := b }
  | .sample _ => s
  | .dir m => { s with dir := m }
  | .delay _ => s

/-- A request that fits the Bus Direction: its events write the lines, `dbus` and `dir`, its rule `mode` and `win`. -/
def Block.run {q : Parameters} (s : Block q) (r : RequestOf q) (v0 v1 : BitVec q.busW) : StepResult q where
  block := { (r.trace s.win v0 v1).foldl Block.after s with mode := r.mode s.mode, win := r.win s.mode s.win }
  trace := r.trace s.win v0 v1
  response := r.response v0 v1

/-- One request (R10): the contract check comes first (R182). -/
def Block.request {q : Parameters} (s : Block q) (r : RequestOf q) (v0 v1 : BitVec q.busW) :
    Host.Outcome (StepResult q) Fault Refusal :=
  if s.dir = r.mnemonic.neededDir then .next (s.run r v0 v1) else .fault (.contractViolation r.mnemonic s.dir)

/-- One request word (R10, R80): a reserved operation code is refused before anything else (R86, R183, R185). -/
def Block.step {q : Parameters} (s : Block q) (w : BitVec q.rqW) (v0 v1 : BitVec q.busW) :
    Host.Outcome (StepResult q) Fault Refusal :=
  match q.decode w with
  | some r => s.request r v0 v1
  | none => .refused (.illegalRequest (q.opField w))

/-! ## The machine as the block at the spec's widths -/

/-- An event of the machine, as the block's at the spec's widths. -/
def Event.withWidths (p : Params) : Event → EventOf p.withWidths
  | .line l v => .line l v
  | .drive b => .drive b
  | .sample v => .sample v
  | .dir m => .dir m
  | .delay n => .delay n

/-- The belief of the machine, as the block's at the spec's widths. -/
def Win.withWidths (p : Params) : Win → WinOf p.withWidths
  | .unknown => .unknown
  | .defaultLR => .defaultLR
  | .customLR x2 y2 => .customLR x2 y2

/-- The block's state proper in the machine's state. -/
def State.block (p : Params) (s : State) : Block p.withWidths where
  lines := s.lines
  dbus := s.dbus
  dir := s.dir
  mode := s.mode
  win := s.win.withWidths p

end Sys2Proof.Machine
end

