-- ==== Sys2Proof/Laws/Widths.lean ====
section
/-! SUPPORT. The machine is the block of Machine/Widths.lean at the spec's widths: `step_withWidths`, for every request word, every
state and every set of parameters. -/

namespace Sys2Proof.Machine

open Sys2Proof.Safety

variable (p : Params)

/-! ## Operand forms -/

@[simp] theorem hiByte_withWidths (v : Word16) : p.withWidths.hiByte v = hiByte v := rfl
@[simp] theorem loByte_withWidths (v : Word16) : p.withWidths.loByte v = loByte v := rfl
@[simp] theorem opField_withWidths (w : RequestWord) : p.withWidths.opField w = opField w := rfl
@[simp] theorem joinBytes_withWidths (hi lo : Byte) : p.withWidths.joinBytes hi lo = joinBytes hi lo :=
  BitVec.setWidth_eq (hi ++ lo)
@[simp] theorem joinCount_withWidths (b c : Word16) : p.withWidths.joinCount b c = joinCount b c :=
  BitVec.setWidth_eq (b ++ c)

/-- A word is taken apart alike. -/
theorem decode_withWidths (w : RequestWord) :
    p.withWidths.decode w = (Mnemonic.ofOp (opField w)).map fun m => ⟨m, fieldA w, fieldB w, fieldC w, fieldD w⟩ := rfl

/-- The mnemonic of the request an operation code selects. -/
@[simp] theorem mnemonic_operandsOf (w : RequestWord) (m : Mnemonic) : (m.operandsOf w).mnemonic = m := by
  cases m <;> rfl

@[simp] theorem neededDir_mnemonic (i : Instr) : i.mnemonic.neededDir = neededDir i := by
  cases i <;> rfl

/-! ## Events -/

theorem strobe_withWidths : p.withWidths.strobe = (strobeEvents p).map (Event.withWidths p) := by
  unfold Parameters.strobe strobeEvents pulseEvents
  split <;> rfl

theorem writeByte_withWidths (b : Byte) : p.withWidths.writeByte b = (writeEvents p b).map (Event.withWidths p) := by
  simp [Parameters.writeByte, writeEvents, strobe_withWidths, Event.withWidths]

theorem readByte_withWidths (v : Byte) : p.withWidths.readByte v = (readEvents p v).map (Event.withWidths p) := rfl

theorem sendCommand_withWidths (o : Byte) : p.withWidths.sendCommand o = (commandEvents p o).map (Event.withWidths p) := by
  simp [Parameters.sendCommand, commandEvents, writeByte_withWidths, Event.withWidths, Parameters.dataLevel, Params.dataLevel]

theorem sendDataPair_withWidths (hi lo : Byte) :
    p.withWidths.sendDataPair hi lo = (pairEvents p hi lo).map (Event.withWidths p) := by
  simp [Parameters.sendDataPair, pairEvents, writeByte_withWidths, Event.withWidths, Parameters.dataLevel, Params.dataLevel]

theorem sendDataFast_withWidths (b : Byte) : p.withWidths.sendDataFast b = (fastEvents p b).map (Event.withWidths p) := by
  simp [Parameters.sendDataFast, fastEvents, strobe_withWidths, Event.withWidths, Parameters.dataLevel, Params.dataLevel]

theorem sendWord_withWidths (v : Word16) : p.withWidths.sendWord v = (wordEvents p v).map (Event.withWidths p) :=
  sendDataPair_withWidths p _ _

theorem sendStart_withWidths (o : Byte) (v : Word16) :
    p.withWidths.sendStart o v = (startEvents p o v).map (Event.withWidths p) := by
  simp [Parameters.sendStart, startEvents, sendCommand_withWidths, sendWord_withWidths]

theorem sendRange_withWidths (o : Byte) (v1 v2 : Word16) :
    p.withWidths.sendRange o v1 v2 = (rangeEvents p o v1 v2).map (Event.withWidths p) := by
  simp [Parameters.sendRange, rangeEvents, sendCommand_withWidths, sendWord_withWidths]

theorem lrReset_withWidths : p.withWidths.lrReset = (lrResetEvents p).map (Event.withWidths p) := by
  simp [Parameters.lrReset, lrResetEvents, sendRange_withWidths]

@[simp] theorem win_withWidths_defaultLR (w : Win) : w.withWidths p = .defaultLR ↔ w = .defaultLR := by
  cases w <;> simp [Win.withWidths]

/-! ## Requests -/

/-- A word of the machine, taken apart, with a mnemonic. -/
abbrev fields (w : RequestWord) (m : Mnemonic) : RequestOf p.withWidths := ⟨m, fieldA w, fieldB w, fieldC w, fieldD w⟩

/-- The bytes the environment answers to the first and the second `Sample` event of a request from here (R10, R58). -/
abbrev firstByte (s : State) : Byte := (draw s).1
abbrev secondByte (s : State) : Byte := (draw (draw s).2).1

theorem body_withWidths (w : RequestWord) (m : Mnemonic) (s : State) :
    (fields p w m).body (s.win.withWidths p) (firstByte s) (secondByte s)
      = (bodyEvents p s (m.operandsOf w)).map (Event.withWidths p) := by
  cases m <;>
    simp [RequestOf.body, bodyEvents, Mnemonic.operandsOf, sendStart_withWidths, sendRange_withWidths, sendCommand_withWidths,
      sendWord_withWidths, sendDataPair_withWidths, sendDataFast_withWidths, writeByte_withWidths, readByte_withWidths,
      lrReset_withWidths, Event.withWidths, Parameters.dataLevel, Params.dataLevel, List.map_flatten]
  split <;> rfl

/-- What the events of a request write, in the terms of the scan and of the Bus Direction along a trace. -/
theorem foldl_after_withWidths (es : List Event) (b : Block p.withWidths) :
    (es.map (Event.withWidths p)).foldl Block.after b =
      { b with
        lines := ((⟨b.lines, b.dbus⟩ : Scan).afterAll es).lines
        dbus := ((⟨b.lines, b.dbus⟩ : Scan).afterAll es).dbus
        dir := dirAlong b.dir es } := by
  induction es generalizing b with
  | nil => rfl
  | cons e es ih => cases e <;> simp [ih, Event.withWidths, Block.after, Scan.after, dirAlong]

theorem dirAlong_append (es fs : List Event) (d : Dir) : dirAlong d (es ++ fs) = dirAlong (dirAlong d es) fs := by
  induction es generalizing d with
  | nil => rfl
  | cons e es ih => cases e <;> simp [dirAlong, ih]

/-- Events that hold no direction change leave the Bus Direction. -/
theorem dirAlong_of_no_dir (es : List Event) (h : ∀ m, .dir m ∉ es) (d : Dir) : dirAlong d es = d := by
  induction es with
  | nil => rfl
  | cons e es ih =>
    have hes : dirAlong d es = d := ih fun m hm => h m (List.mem_cons_of_mem _ hm)
    cases e with
    | dir m => exact absurd (List.mem_cons_self ..) (h m)
    | line | drive | sample | delay => exact hes

theorem no_dir_writeEvents (b : Byte) (m : Dir) : Event.dir m ∉ writeEvents p b := by
  unfold writeEvents strobeEvents pulseEvents
  split <;> simp

theorem no_dir_strobeEvents (m : Dir) : Event.dir m ∉ strobeEvents p := by
  unfold strobeEvents pulseEvents
  split <;> simp

/-- The direction changes among the events of a request are those of the read bracket (R26). -/
theorem dirAlong_requestEvents (s : State) (i : Instr) (d : Dir) : dirAlong d (requestEvents p s i) = dirAfter i d := by
  cases i
  case beginrd =>
    simp [requestEvents, bodyEvents, dirAlong, dirAlong_append, commandEvents, readEvents, dirAfter]
  case endrd => rfl
  all_goals
    rw [dirAlong_of_no_dir]
    · rfl
    · intro m
      simp [requestEvents, bodyEvents, startEvents, rangeEvents, lrResetEvents, commandEvents, wordEvents, pairEvents,
        fastEvents, readEvents, no_dir_writeEvents, no_dir_strobeEvents]

theorem mode_withWidths (w : RequestWord) (m : Mnemonic) (x : Mode) :
    (fields p w m).mode x = modeAfter x (m.operandsOf w) := by
  cases m <;> rfl

theorem win_withWidths (w : RequestWord) (m : Mnemonic) (s : State) :
    (fields p w m).win s.mode (s.win.withWidths p) = (winAfter s (m.operandsOf w)).withWidths p := by
  cases m <;> simp [RequestOf.win, winAfter, Mnemonic.operandsOf, Win.withWidths, Nat.pos_iff_ne_zero] <;> split <;> rfl

theorem response_withWidths (w : RequestWord) (m : Mnemonic) (s : State) :
    (fields p w m).response (firstByte s) (secondByte s) = (responseOf s (m.operandsOf w)).head? := by
  cases m <;> simp [RequestOf.response, responseOf, Mnemonic.operandsOf, zext16]

/-- R10's result for a request of the machine that took `s` to `t`. -/
def stepResult (s t : State) : StepResult p.withWidths where
  block := t.block p
  trace := (newEvents s t).map (Event.withWidths p)
  response := (t.responses.drop s.responses.length).head?

theorem trace_withWidths (w : RequestWord) (m : Mnemonic) (s : State) :
    (fields p w m).trace (s.win.withWidths p) (firstByte s) (secondByte s)
      = (requestEvents p s (m.operandsOf w)).map (Event.withWidths p) := by
  unfold RequestOf.trace
  rw [body_withWidths]
  simp [requestEvents, Event.withWidths]

/-- A request that fits the Bus Direction does the same on the block as on the machine. -/
theorem run_withWidths (w : RequestWord) (m : Mnemonic) (s : State) :
    (s.block p).run (fields p w m) (firstByte s) (secondByte s) = stepResult p s (stateAfter p (m.operandsOf w) s) := by
  have ht := trace_withWidths p w m s
  have hw := win_withWidths p w m s
  have hr := response_withWidths p w m s
  unfold Block.run stepResult
  rw [show (s.block p).win = s.win.withWidths p from rfl, show (s.block p).mode = s.mode from rfl, ht, hw, hr,
    foldl_after_withWidths, mode_withWidths, newEvents_stateAfter]
  simp only [State.block, stateAfter, afterAll_requestEvents, dirAlong_requestEvents, List.drop_left]

/-- The machine is the block at the spec's widths: on every request word and from every state, with the bytes the environment
answers there, R10's step refuses, faults and goes on as the machine's decoder and `request` do, with the same block, the
same events and the same response. -/
theorem step_withWidths (w : RequestWord) (s : State) :
    (s.block p).step w (firstByte s) (secondByte s) =
      match decode w with
      | .error (.reservedOp op) => .refused (.illegalRequest op)
      | .ok i =>
        match request p i s with
        | .next t => .next (stepResult p s t)
        | .fault f => .fault f
        | .refused r => .refused r := by
  unfold Block.step decode
  rw [decode_withWidths]
  cases hm : Mnemonic.ofOp (opField w) with
  | none => rfl
  | some m =>
    have hn : m.neededDir = neededDir (m.operandsOf w) := by rw [← neededDir_mnemonic, mnemonic_operandsOf]
    simp only [Option.map_some, request_eq, contract, Block.request, mnemonic_operandsOf, run_withWidths, hn]
    rw [show (s.block p).dir = s.dir from rfl]
    split <;> rfl

end Sys2Proof.Machine
end

