-- ==== Sys2Proof/Tests/Slice0.lean ====
section
/-! SUPPORT. Tests. Every expected value is written out from the spec: 95_test_vectors.md, the encodings of 30_encoding.md and the
tables of 60_exceptions.md. The tests of single requests run with the reference parameters, as the spec's vectors do. The
second half holds a witness for every statement that has hypotheses. -/

namespace Sys2Proof.Tests

open Sys2Proof Sys2Proof.Machine Sys2Proof.Machine.Spelling Sys2Proof.Safety

/-! ## Helpers -/

/-- A quiescent state with the elements a vector names. -/
def before (dir : Dir) (mode : Mode) (win : Win) (answers : List Byte := []) : State :=
  { State.reset with dir := dir, mode := mode, win := win, answers := answers }

/-- The reference parameters with a write pulse delay. -/
def slow : Params := { Params.reference with tWrPulse := 2 }

/-- The reference parameters with the other polarity of CD. -/
def inverted : Params := { Params.reference with cdCmdLevel := .high }

/-- The reference parameters with a larger panel. -/
def large : Params := { Params.reference with xmax := 479, ymax := 799 }

/-- What a vector gives: the events, then `dir`, `mode`, `win` and the responses after the request. -/
def ran (o : Host.Outcome State Fault Refusal) : Option (List Event × Dir × Mode × Win × List Word16) :=
  match o with
  | .next t => some (t.trace, t.dir, t.mode, t.win, t.responses)
  | .fault _ => none
  | .refused _ => none

/-- The fault of an outcome. -/
def faulted (o : Host.Outcome State Fault Refusal) : Option Fault :=
  match o with
  | .next _ => none
  | .fault f => some f
  | .refused _ => none

/-- The refusal of an outcome. -/
def refusedWith (o : Host.Outcome State Fault Refusal) : Option Refusal :=
  match o with
  | .next _ => none
  | .fault _ => none
  | .refused r => some r

/-- The bytes a request moves, with the belief after it. -/
def moved (p : Params) (i : Instr) (s : State) : Option (List BusTxn × Win) :=
  match request p i s with
  | .next t => some (bytesBetween p s t, t.win)
  | .fault _ => none
  | .refused _ => none

/-- Whether an outcome is a next state. -/
def completes (o : Host.Outcome State Fault Refusal) : Bool :=
  match o with
  | .next _ => true
  | .fault _ => false
  | .refused _ => false

/-- What decoding a word gives. -/
def decoded (w : RequestWord) : Option Instr :=
  match decode w with
  | .ok i => some i
  | .error _ => none

/-! ## Decoding: a word written out for every request (95 sections 2.3 to 2.7) -/

theorem test_decode_setpx : decoded 0x01_0005_0007_0000_0000 = some (.setpx 5 7) := by decide
theorem test_decode_setpx_ignores_c_d : decoded 0x01_0005_0007_FFFF_FFFF = some (.setpx 5 7) := by decide
theorem test_decode_setwin : decoded 0x02_000A_0014_0032_003C = some (.setwin 10 20 50 60) := by decide
theorem test_decode_rstfw_ignores_fields : decoded 0x03_1234_5678_9ABC_DEF0 = some .rstfw := by decide
theorem test_decode_beginpx : decoded 0x10_0000_0000_0000_0000 = some .beginpx := by decide
theorem test_decode_pxw : decoded 0x11_F800_0000_0000_0000 = some (.pxw 0xF800) := by decide
theorem test_decode_pxrun_ignores_d : decoded 0x12_001F_0001_2C00_BEEF = some (.pxrun 0x001F 76800) := by decide
theorem test_decode_beginrd : decoded 0x18_0000_0000_0000_0000 = some .beginrd := by decide
theorem test_decode_rdpx : decoded 0x19_0000_0000_0000_0000 = some .rdpx := by decide
theorem test_decode_endrd : decoded 0x1A_0000_0000_0000_0000 = some .endrd := by decide
theorem test_decode_cmd : decoded 0x40_002C_0000_0000_0000 = some (.cmd 0x2C) := by decide
theorem test_decode_dat2 : decoded 0x41_2233_0000_0000_0000 = some (.dat2 0x22 0x33) := by decide
theorem test_decode_datf : decoded 0x42_00FF_0000_0000_0000 = some (.datf 0xFF) := by decide
theorem test_decode_wrb_ignores_high_byte : decoded 0x80_AB55_0000_0000_0000 = some (.wrb 0x55) := by decide
theorem test_decode_rdb : decoded 0x81_0000_0000_0000_0000 = some .rdb := by decide

/-- The reserved operation codes with a given high digit. -/
def reservedWith (hi : Nat) : Nat := ((List.range 16).filter fun lo => (Mnemonic.ofOp (.ofNat 8 (16 * hi + lo))).isNone).length

/-- R84, R86: by the high digit, three codes of 0x0, six of 0x1, three of 0x4 and two of 0x8 are used; 242 are reserved. -/
theorem test_reserved_count :
    (List.range 16).map reservedWith = [13, 10, 16, 16, 13, 16, 16, 16, 14, 16, 16, 16, 16, 16, 16, 16] := by decide

theorem test_encode_setwin : encode (.setwin 10 20 50 60) = 0x02_000A_0014_0032_003C := by decide
theorem test_encode_pxrun : encode (.pxrun 0x001F 76800) = 0x12_001F_0001_2C00_0000 := by decide

theorem test_table_word : decodeTableWord 72 0x11_07E0_0000_0000_0000 = some (.pxw 0x07E0) := by decide
theorem test_table_word_reserved : decodeTableWord 72 0x82_0000_0000_0000_0000 = none := by decide

/-! ## Well-formedness: an ill-formed term for each check -/

theorem test_params_settle_zero : ({ Params.reference with tRdSettle := 0 } : Params).wellFormed = false := by decide
theorem test_params_reference : Params.reference.wellFormed = true := by decide
theorem test_line_too_few : (⟨.request .SETPX, [5]⟩ : Line).wellFormed = false := by decide
theorem test_line_too_many : (⟨.request .RSTFW, [0]⟩ : Line).wellFormed = false := by decide
theorem test_line_byte_too_large : (⟨.request .WRB, [256]⟩ : Line).wellFormed = false := by decide
theorem test_line_word_too_large : (⟨.pixel, [5, 7, 65536]⟩ : Line).wellFormed = false := by decide
theorem test_line_count_largest : (⟨.request .PXRUN, [31, 4294967295]⟩ : Line).wellFormed = true := by decide
theorem test_line_count_too_large : (⟨.request .PXRUN, [31, 4294967296]⟩ : Line).wellFormed = false := by decide

/-! ## Micro-operations (95 sections 2.1, 2.2) -/

theorem test_wrStrobe_slow : (wrStrobe slow State.reset).trace = [WR0, DLY 2, WR1] := by decide
theorem test_readByte :
    (readByte Params.reference (before .read .pixelRead .unknown [0xA5])).2.trace = [RD0, DLY 7, S 0xA5, RD1] := by decide
theorem test_enterData_emits_again : (enterData Params.reference State.reset).trace = [CD1] := by decide
theorem test_sendParam16 :
    (sendParam16 Params.reference 319 State.reset).trace = [CD1, D 0x01, WR0, WR1, D 0x3F, WR0, WR1] := by decide
theorem test_sendDataPair_equal_bytes_drives_twice :
    (sendDataPair Params.reference 0x7E 0x7E State.reset).trace = [CD1, D 0x7E, WR0, WR1, D 0x7E, WR0, WR1] := by decide
theorem test_sendCommand_inverted : (sendCommand inverted 0x2C State.reset).trace = [CD1, D 0x2C, WR0, WR1, CD0] := by decide

/-! ## Raw requests (95 section 2.3) -/

theorem test_wrb_idle : ran (request Params.reference (.wrb 0x55) (before .write .idle .defaultLR))
    = some ([CS0, D 0x55, WR0, WR1, CS1], .write, .idle, .unknown, []) := by decide
theorem test_wrb_streaming : ran (request Params.reference (.wrb 0x55) (before .write .pixelWrite .defaultLR))
    = some ([CS0, D 0x55, WR0, WR1, CS1], .write, .pixelWrite, .defaultLR, []) := by decide
theorem test_rdb : ran (request Params.reference .rdb (before .read .pixelRead .defaultLR [0x3C]))
    = some ([CS0, RD0, DLY 7, S 0x3C, RD1, CS1], .read, .pixelRead, .defaultLR, [0x003C]) := by decide
theorem test_rdb_violation : faulted (request Params.reference .rdb (before .write .idle .unknown))
    = some (.contractViolation .RDB .write) := by decide
theorem test_cmd_streaming : ran (request Params.reference (.cmd 0x36) (before .write .pixelWrite .defaultLR))
    = some ([CS0, CD0, D 0x36, WR0, WR1, CD1, CS1], .write, .idle, .unknown, []) := by decide
theorem test_cmd_pixel_write_byte_opens_no_stream :
    ran (request Params.reference (.cmd 0x2C) (before .write .idle (.customLR 50 60)))
      = some ([CS0, CD0, D 0x2C, WR0, WR1, CD1, CS1], .write, .idle, .unknown, []) := by decide
theorem test_dat2_idle : ran (request Params.reference (.dat2 0x12 0x34) (before .write .idle .defaultLR))
    = some ([CS0, CD1, D 0x12, WR0, WR1, D 0x34, WR0, WR1, CS1], .write, .idle, .unknown, []) := by decide
theorem test_dat2_streaming : ran (request Params.reference (.dat2 0x12 0x34) (before .write .pixelWrite (.customLR 50 60)))
    = some ([CS0, CD1, D 0x12, WR0, WR1, D 0x34, WR0, WR1, CS1], .write, .pixelWrite, .customLR 50 60, []) := by decide
theorem test_datf : ran (request Params.reference (.datf 0xFF) (before .write .idle .unknown))
    = some ([CS0, CD1, D 0xFF, WR0, WR1, WR0, WR1, CS1], .write, .idle, .unknown, []) := by decide
theorem test_datf_violation : faulted (request Params.reference (.datf 0xFF) (before .read .pixelRead .unknown))
    = some (.contractViolation .DATF .read) := by decide

/-! ## Pixel-write stream (95 section 2.4) -/

theorem test_beginpx : ran (request Params.reference .beginpx (before .write .idle (.customLR 50 60)))
    = some ([CS0, CD0, D 0x2C, WR0, WR1, CD1, CS1], .write, .pixelWrite, .customLR 50 60, []) := by decide
theorem test_pxw_streaming : ran (request Params.reference (.pxw 0xF800) (before .write .pixelWrite .defaultLR))
    = some ([CS0, CD1, D 0xF8, WR0, WR1, D 0x00, WR0, WR1, CS1], .write, .pixelWrite, .defaultLR, []) := by decide
theorem test_pxw_idle : ran (request Params.reference (.pxw 0xAAAA) (before .write .idle .defaultLR))
    = some ([CS0, CD1, D 0xAA, WR0, WR1, D 0xAA, WR0, WR1, CS1], .write, .idle, .unknown, []) := by decide
theorem test_pxrun_two : ran (request Params.reference (.pxrun 0x001F 2) (before .write .pixelWrite .defaultLR))
    = some ([CS0, CD1, D 0x00, WR0, WR1, D 0x1F, WR0, WR1, CD1, D 0x00, WR0, WR1, D 0x1F, WR0, WR1, CS1],
        .write, .pixelWrite, .defaultLR, []) := by decide
theorem test_pxrun_zero : ran (request Params.reference (.pxrun 0x1234 0) (before .write .idle .defaultLR))
    = some ([CS0, CS1], .write, .idle, .defaultLR, []) := by decide

/-! ## Pixel-read stream (95 section 2.5) -/

theorem test_beginrd : ran (request Params.reference .beginrd (before .write .idle .defaultLR [0xEE]))
    = some ([CS0, CD0, D 0x2E, WR0, WR1, CD1, DIRR, CD1, DLY 7, RD0, DLY 7, S 0xEE, RD1, CS1],
        .read, .pixelRead, .defaultLR, []) := by decide
/-- R62's projection on the trace of BEGINRD. -/
theorem test_projection :
    bus Params.reference 0 [CS0, CD0, D 0x2E, WR0, WR1, CD1, DIRR, CD1, DLY 7, RD0, DLY 7, S 0xEE, RD1, CS1]
      = [.wrCmd 0x2E, .turn .read, .wait 7, .wait 7, .rd 0xEE] := by decide
theorem test_beginrd_violation : faulted (request Params.reference .beginrd (before .read .pixelRead .defaultLR))
    = some (.contractViolation .BEGINRD .read) := by decide
theorem test_rdpx : ran (request Params.reference .rdpx (before .read .pixelRead .defaultLR [0xFF, 0x00]))
    = some ([CS0, CD1, RD0, DLY 7, S 0xFF, RD1, RD0, DLY 7, S 0x00, RD1, CS1],
        .read, .pixelRead, .defaultLR, [0xFF00]) := by decide
theorem test_endrd : ran (request Params.reference .endrd (before .read .pixelRead .defaultLR))
    = some ([CS0, DIRW, CS1], .write, .idle, .defaultLR, []) := by decide
theorem test_endrd_violation : faulted (request Params.reference .endrd (before .write .idle .defaultLR))
    = some (.contractViolation .ENDRD .write) := by decide

/-! ## Window requests (95 section 2.6) -/

theorem test_setpx_default : ran (request Params.reference (.setpx 5 7) (before .write .pixelWrite .defaultLR))
    = some ([CS0, CD0, D 0x2A, WR0, WR1, CD1, CD1, D 0x00, WR0, WR1, D 0x05, WR0, WR1,
        CD0, D 0x2B, WR0, WR1, CD1, CD1, D 0x00, WR0, WR1, D 0x07, WR0, WR1, CS1], .write, .idle, .defaultLR, []) := by
  decide
theorem test_setpx_custom : moved Params.reference (.setpx 5 7) (before .write .idle (.customLR 50 60))
    = some ([.wrCmd 0x2A, .wrData 0x00, .wrData 0x00, .wrData 0x00, .wrData 0xEF,
        .wrCmd 0x2B, .wrData 0x00, .wrData 0x00, .wrData 0x01, .wrData 0x3F,
        .wrCmd 0x2A, .wrData 0x00, .wrData 0x05, .wrCmd 0x2B, .wrData 0x00, .wrData 0x07], .defaultLR) := by decide
/-- The bounds come from the parameters. -/
theorem test_large_panel : moved large (.setpx 1 2) (before .write .idle .unknown)
    = some ([.wrCmd 0x2A, .wrData 0x00, .wrData 0x00, .wrData 0x01, .wrData 0xDF,
        .wrCmd 0x2B, .wrData 0x00, .wrData 0x00, .wrData 0x03, .wrData 0x1F,
        .wrCmd 0x2A, .wrData 0x00, .wrData 0x01, .wrCmd 0x2B, .wrData 0x00, .wrData 0x02], .defaultLR) := by decide
theorem test_setwin : ran (request Params.reference (.setwin 10 20 50 60) (before .write .idle .unknown))
    = some ([CS0, CD0, D 0x2A, WR0, WR1, CD1, CD1, D 0x00, WR0, WR1, D 0x0A, WR0, WR1, CD1, D 0x00, WR0, WR1, D 0x32, WR0,
        WR1, CD0, D 0x2B, WR0, WR1, CD1, CD1, D 0x00, WR0, WR1, D 0x14, WR0, WR1, CS1],
        .write, .idle, .customLR 50 60, []) := by decide
theorem test_setwin_full_panel_is_custom : moved Params.reference (.setwin 0 0 239 319) (before .write .idle .defaultLR)
    = some ([.wrCmd 0x2A, .wrData 0x00, .wrData 0x00, .wrData 0x00, .wrData 0xEF,
        .wrCmd 0x2B, .wrData 0x00, .wrData 0x00], .customLR 239 319) := by decide
theorem test_rstfw : ran (request Params.reference .rstfw (before .write .pixelWrite (.customLR 50 60)))
    = some ([CS0, CD0, D 0x2A, WR0, WR1, CD1, CD1, D 0x00, WR0, WR1, D 0x00, WR0, WR1, CD1, D 0x00, WR0, WR1, D 0xEF, WR0,
        WR1, CD0, D 0x2B, WR0, WR1, CD1, CD1, D 0x00, WR0, WR1, D 0x00, WR0, WR1, CS1],
        .write, .idle, .defaultLR, []) := by decide

/-! ## The step -/

theorem test_step_runs_placed_word :
    (step (State.reset.withFetchWord 72 0x10_0000_0000_0000_0000)) = exec .beginpx State.reset := rfl
theorem test_step_refuses_reserved : refusedWith (step (State.reset.withFetchWord 72 0x04_0000_0000_0000_0000))
    = some (.illegalRequest 0x04) := by decide
/-- R185: a reserved word is refused also where every request but three would be a contract violation. -/
theorem test_decoding_comes_first :
    refusedWith (step ((before .read .pixelRead .unknown).withFetchWord 72 0x82_0000_0000_0000_0000))
      = some (.illegalRequest 0x82) := by decide
theorem test_reset_input : ran (step { before .read .pixelRead (.customLR 50 60) with inputs := [.reset], trace := [CS0] })
    = some ([], .write, .idle, .unknown, []) := by decide

/-! ## Views, assembler text and the caller's duties -/

/-- R30: bits rst, rd, wr, cd, cs are 1 at reset, `dir`, `mode` and the tag of `win` are 0. -/
theorem test_image_reset : State.reset.image 0 = 0x00_0000_001F := by decide
/-- R30: `dbus` 0x3C, `x2` 50, tag 2, mode 1. -/
theorem test_image_custom : ({ before .write .pixelWrite (.customLR 50 60) with dbus := 0x3C } : State).image 0xFFFF
    = 0x3C_0032_025F := by decide
theorem test_pins_read : (before .read .pixelRead .unknown).pins.dataOe = false := by decide

theorem test_assemble_setwin : assemble "SETWIN 10, 20, 50, 60".toList = some [0x02_000A_0014_0032_003C] := by decide
theorem test_assemble_hex_and_comment : assemble "PXRUN 0x001F, 76800 ; fill".toList = some [0x12_001F_0001_2C00_0000] := by
  decide
theorem test_assemble_pixel : assemble "PIXEL 5, 7, 0xF800".toList
    = some [0x01_0005_0007_0000_0000, 0x10_0000_0000_0000_0000, 0x11_F800_0000_0000_0000] := by decide
theorem test_assemble_fill : assemble "FILL 0, 0, 239, 319, 0x001F, 3".toList
    = some [0x02_0000_0000_00EF_013F, 0x10_0000_0000_0000_0000, 0x12_001F_0000_0003_0000] := by decide
theorem test_assemble_comment : assemble "; nothing".toList = some [] := by decide
theorem test_assemble_unknown : assemble "NOP".toList = none := by decide

/-- R210: a window for each operation, then BEGINPX, then the pixel words. -/
theorem test_window_first : windowFirst .unset [.setpx 5 7, .beginpx, .pxw 0, .setwin 0 0 1 1, .beginrd, .rdpx, .endrd] = true := by
  decide
theorem test_window_missing :
    windowFirst .unset [.pxw 0] = false ∧ windowFirst .unset [.setpx 5 7, .pxw 0] = false ∧
    windowFirst .unset [.setpx 5 7, .beginpx, .pxw 0, .beginpx] = false ∧ windowFirst .unset [.beginrd] = false := by decide
/-- R213: a single WRB in a stream shifts the next word; the parameters of a raw command are no pairs. -/
theorem test_pairs_whole :
    pairsWhole .outside [.beginpx, .wrb 0x55, .pxw 0] = false ∧ pairsWhole .outside [.beginrd, .rdb] = false ∧
    pairsWhole .outside [.beginpx, .wrb 1, .wrb 2, .pxw 0] = true ∧ pairsWhole .outside [.cmd 0x36, .wrb 0x48] = true ∧
    pairsWhole .outside [.cmd 0x2A, .wrb 1, .dat2 2 3] = true := by decide
theorem test_coords : coordsInRange Params.reference (.setwin 50 20 10 60) = false := by decide
/-- R215: the window of SETWIN runs to the end row `YMAX`, not to `y2`. -/
theorem test_window_pixels : windowPixels Params.reference (.setwin 10 20 50 60) = some (41 * 300) := by decide
/-- R215: one pixel fits the window of `SETPX 239, 319`, a second does not; data after a raw command is no pixel data. -/
theorem test_stays_inside :
    staysInside Params.reference ⟨0, none⟩ [.setpx 239 319, .beginpx, .pxw 0] = true ∧
    staysInside Params.reference ⟨0, none⟩ [.setpx 239 319, .beginpx, .pxw 0, .wrb 0] = false ∧
    staysInside Params.reference ⟨0, none⟩ [.cmd 0x36, .wrb 0x48] = true ∧
    staysInside Params.reference ⟨0, none⟩ [.setpx 239 319, .beginpx, .cmd 0x36, .pxw 0, .pxw 0] = true := by decide

/-! ## Other widths (R5, assumption 9): hand calculation from the rules with half of each width -/

/-- The reference block with all its widths halved, the operation code at its 8 bits. -/
abbrev halved : Parameters where
  busW := 4
  wordW := 8
  countW := 16
  rqW := 40
  xmax := 239
  ymax := 19
  opCaset := 0xA
  opPaset := 0xB
  opRamwr := 0xC
  opRamrd := 0xE
  tRdSettle := 7
  tWrPulse := 0
  cdCmdLevel := .low

/-- The trace of a step at these widths, where the environment answers 1 and then 2. -/
def tracedAt (d : Dir) (w : BitVec 40) : Option (List (EventOf halved) × Option (BitVec 8)) :=
  match (⟨Lines.fullIdle, 0, d, .idle, .unknown⟩ : Block halved).step w 1 2 with
  | .next r => some (r.trace, r.response)
  | .fault _ => none
  | .refused _ => none

theorem test_halved_pxw : tracedAt .write 0x11_5A_00_00_00 = some
    ([.line .cs .low, .line .cd .high, .drive 0x5, .line .wr .low, .line .wr .high, .drive 0xA, .line .wr .low,
      .line .wr .high, .line .cs .high], none) := by decide

theorem test_halved_rdpx : (tracedAt .read 0x19_00_00_00_00).map Prod.snd = some (some 0x12) := by decide

/-! ## Witnesses: states and operands that meet the hypotheses of each statement

`witness_<Name>` belongs to `Obligations.<Name>`. A statement over every request that completes has the table below as its
witness: every request, in every state its rule tells apart. -/

theorem witness_EncodeOfDecodeKeepsUsedBits : decode 0x01_0005_0007_FFFF_FFFF = .ok (.setpx 5 7) := rfl

theorem witness_UnusedBitsHaveNoEffect :
    decode 0x01_0005_0007_FFFF_FFFF = .ok (.setpx 5 7) ∧
    (0x01_0005_0007_0000_0000 : RequestWord) &&& (Instr.setpx 5 7).mnemonic.usedBits
      = 0x01_0005_0007_FFFF_FFFF &&& (Instr.setpx 5 7).mnemonic.usedBits := ⟨rfl, by decide⟩

/-- A state with one word waiting. -/
def waiting (w : RequestWord) : State := { State.reset with inputs := [.request w] }

/-- Both sides: the codes beside the table's are refused, the table's first and last are not. -/
theorem witness_ReservedOperationCodesAreRefused :
    (waiting 0x00_0000_0000_0000_0000).inputs = .request 0x00_0000_0000_0000_0000 :: [] ∧
    refusedWith (step (waiting 0x00_0000_0000_0000_0000)) = some (.illegalRequest 0x00) ∧
    refusedWith (step (waiting 0x82_0000_0000_0000_0000)) = some (.illegalRequest 0x82) ∧
    refusedWith (step (waiting 0x01_0000_0000_0000_0000)) = none ∧
    refusedWith (step (waiting 0x81_0000_0000_0000_0000)) = none := by decide

/-- Two states whose beliefs differ in the part the image does not hold. -/
theorem witness_RegisterImageDeterminesState :
    (before .write .idle (.customLR 50 60)).image 0 = (before .write .idle (.customLR 50 61)).image 0xFFFF ∧
    (before .write .idle (.customLR 50 60)).win.tag = 2 := by decide

theorem witness_StepExecutesDecodedRequest :
    (waiting 0x10_0000_0000_0000_0000).inputs = .request 0x10_0000_0000_0000_0000 :: [] ∧
    decode 0x10_0000_0000_0000_0000 = .ok .beginpx := ⟨rfl, rfl⟩

theorem witness_StepIdlesWithAllStateKept : (before .read .pixelRead .unknown).inputs = [] := rfl

theorem witness_ResetInputRestoresResetState :
    ({ before .read .pixelRead (.customLR 50 60) with inputs := [.reset] } : State).inputs = .reset :: [] := rfl

/-- A state inside a burst, ready to strobe. -/
theorem witness_DataPairSendsTwoFullBytes :
    (csAssert State.reset).lines.cs = .low ∧ (csAssert State.reset).lines.wr = .high := ⟨rfl, rfl⟩

theorem witness_DrawTakesTheNextAnswer : (before .read .pixelRead .unknown [0x12, 0x34]).answers = 0x12 :: [0x34] := rfl

theorem witness_BeginPixelStreamSendsCommand :
    (before .write .pixelWrite .defaultLR).dir = .write ∧ (before .read .pixelRead .defaultLR).dir = .read := ⟨rfl, rfl⟩
theorem witness_PixelWordSendsHighThenLow : (before .write .idle .defaultLR).dir = .write := rfl
theorem witness_RawDataPairSendsBothBytes : (before .write .idle .defaultLR).dir = .write := rfl
theorem witness_FastTransferDrivesOnceStrobesTwice : (before .write .pixelWrite .defaultLR).dir = .write := rfl
theorem witness_RawByteLeavesSelectLine : (before .write .idle .defaultLR).dir = .write := rfl
theorem witness_RawCommandLosesBelief : (before .write .pixelWrite .defaultLR).dir = .write := rfl
theorem witness_BulkTransferRepeatsPixelWord : (before .write .idle .defaultLR).dir = .write := rfl
theorem witness_BeginReadStreamTurnsBusThenReads : (before .write .idle .defaultLR [0xEE]).dir = .write := rfl
theorem witness_ReadPixelWordReturnsHighThenLow : (before .read .pixelRead .defaultLR [0x12, 0x34]).dir = .read := rfl
theorem witness_RawReadReturnsByte : (before .read .pixelRead .defaultLR [0x3C]).dir = .read := rfl
theorem witness_EndReadStreamTurnsBusBack : (before .read .pixelRead .defaultLR).dir = .read := rfl
theorem witness_SetPixelProgramsTopLeft : (before .write .idle .defaultLR).dir = .write := rfl
theorem witness_SetWindowSendsBothColumnBounds : (before .write .pixelWrite .defaultLR).dir = .write := rfl
theorem witness_ResetToFullWidthSendsDefaults : (before .write .idle (.customLR 50 60)).dir = .write := rfl

/-- The window requests and the pixel words, each where it is legal, in the states its rule tells apart. -/
def legalInWindow : List (Instr × State) :=
  [(.setpx 5 7, before .write .idle .defaultLR), (.setpx 5 7, before .write .pixelWrite .unknown),
    (.setpx 5 7, before .write .idle (.customLR 50 60)), (.setwin 10 20 50 60, before .write .idle .unknown),
    (.rstfw, before .write .idle .defaultLR), (.beginpx, before .write .idle .defaultLR),
    (.pxw 0xF800, before .write .idle .defaultLR), (.pxw 0xF800, before .write .pixelWrite .defaultLR)]

/-- The streams, likewise. -/
def legalInStream : List (Instr × State) :=
  [(.pxrun 0x001F 0, before .write .idle .defaultLR), (.pxrun 0x001F 2, before .write .idle .defaultLR),
    (.pxrun 0x001F 2, before .write .pixelWrite .defaultLR), (.beginrd, before .write .idle .defaultLR [0xEE]),
    (.rdpx, before .read .pixelRead .defaultLR [0x12, 0x34]), (.endrd, before .read .pixelRead .defaultLR)]

/-- The raw requests, likewise. -/
def legalRaw : List (Instr × State) :=
  [(.cmd 0x2C, before .write .pixelWrite .defaultLR), (.dat2 0x12 0x34, before .write .idle .defaultLR),
    (.datf 0xFF, before .write .pixelWrite .defaultLR), (.wrb 0x55, before .write .idle .defaultLR),
    (.rdb, before .read .pixelRead .defaultLR [0x3C])]

/-- Every request, each where it is legal, in the states its rule tells apart. -/
def legal : List (Instr × State) := legalInWindow ++ legalInStream ++ legalRaw

/-- Each of them completes, with the reference parameters, from the full idle pattern. -/
theorem legal_request_completes :
    (legal.all fun c => completes (request Params.reference c.1 c.2) && c.2.lines == Lines.fullIdle) = true := by decide

/-- Each of them completes, with the machine's parameters. -/
theorem legal_exec_completes : (legal.all fun c => completes (exec c.1 c.2)) = true := by decide

/-- Both clauses: each request of the table fits, and none fits in the other direction. -/
theorem witness_BusDirectionDecidesLegality :
    (legal.all fun c => decide (c.2.dir = neededDir c.1)) = true ∧
    (before .read .pixelRead .unknown).dir ≠ neededDir (.setpx 5 7) ∧
    (before .write .idle .unknown).dir ≠ neededDir .rdb := by decide

theorem witness_DirectionWrittenByReadBracketOnly : (legal.all fun c => completes (exec c.1 c.2)) = true :=
  legal_exec_completes
theorem witness_StreamingModeTransitions : (legal.all fun c => completes (exec c.1 c.2)) = true := legal_exec_completes
theorem witness_WindowBeliefTransitions : (legal.all fun c => completes (exec c.1 c.2)) = true := legal_exec_completes
theorem witness_RequestsWriteOnlyTheirState : (legal.all fun c => completes (exec c.1 c.2)) = true := legal_exec_completes

/-- Both clauses: a request that is not SETPX, a SETPX outside DefaultLR under another such belief, and a SETPX in DefaultLR. -/
theorem witness_OnlySetPixelElides :
    completes (request Params.reference .rstfw (before .write .idle .defaultLR)) = true ∧
    completes (request Params.reference (.setpx 5 7) (before .write .idle .unknown)) = true ∧
    (Win.customLR 50 60 = .defaultLR ↔ (before .write .idle .unknown).win = .defaultLR) ∧
    completes (request Params.reference (.setpx 5 7) (before .write .idle .defaultLR)) = true ∧
    (before .write .idle .defaultLR).win = .defaultLR ∧ Win.unknown ≠ .defaultLR := by decide

/-- Both delays occur. -/
theorem witness_DelayLengthsAreConstants :
    (∃ t, request slow .rdb (before .read .pixelRead .unknown [0x3C]) = .next t ∧
      .delay 7 ∈ newEvents (before .read .pixelRead .unknown [0x3C]) t) ∧
    (∃ t, request slow (.wrb 0x55) State.reset = .next t ∧ .delay 2 ∈ newEvents State.reset t) :=
  ⟨⟨_, rfl, by decide⟩, ⟨_, rfl, by decide⟩⟩

theorem witness_EventsPerRequest :
    Params.reference.tWrPulse = 0 ∧ (legal.all fun c => completes (request Params.reference c.1 c.2)) = true := by decide

/-- A request, a reset and an idle step, each from a quiescent state with a glitch-free trace. -/
theorem witness_StepKeepsQuiescent :
    Quiescent (waiting 0x10_0000_0000_0000_0000) ∧ completes (step (waiting 0x10_0000_0000_0000_0000)) = true ∧
    Quiescent (before .read .pixelRead .unknown) ∧ completes (step (before .read .pixelRead .unknown)) = true ∧
    completes (step { before .read .pixelRead .unknown with inputs := [.reset] }) = true := by decide

/-- The trace may be one that a request has already extended; the parameters may have a write pulse delay. -/
theorem witness_StepKeepsTraceGlitchFree :
    (∃ s : State, exec .endrd { before .read .pixelRead .unknown with trace := [CS0, DIRR, CS1] } = .next s ∧
      GlitchFree Config.params s ∧ completes (step s) = true) ∧
    GlitchFree slow State.reset ∧ completes (request slow (.wrb 0x55) State.reset) = true :=
  ⟨⟨_, rfl, rfl, by decide⟩, rfl, by decide⟩

/-- A trace of a write with a pulse delay and a read: both strobes with their ends, each select, a drive, a direction change and a
sample stand in it. -/
def bothStrobes : List Event :=
  [CS0, CD0, D 0x2E, WR0, DLY 2, WR1, CD1, DIRR, CD1, DLY 7, RD0, DLY 7, S 0xEE, RD1, CS1]

/-- The event at a point of that trace. -/
def bothStrobesAt (k : Nat) (e : Event) : Bool := bothStrobes[k]? == some e

theorem witness_AcceptedTracesAreGlitchFree :
    (Monitor.run slow Monitor.start bothStrobes).isSome = true ∧
    ([(0, CS0), (1, CD0), (2, D 0x2E), (3, WR0), (5, WR1), (7, DIRR), (10, RD0), (12, S 0xEE), (13, RD1)]
      : List (Nat × Event)).all (fun c => bothStrobesAt c.1 c.2) = true ∧
    ([(4, WR1), (11, RD1), (12, RD1), (15, CS1)] : List (Nat × Event)).all (fun c => !bothStrobesAt c.1 c.2) = true := by
  decide

theorem witness_EveryRequestIsOneBurst : (legal.all fun c => completes (request Params.reference c.1 c.2)) = true := by decide

theorem witness_OnlyNamedPatternsAppear :
    (legal.all fun c => completes (exec c.1 c.2) && c.2.lines == Lines.fullIdle) = true := by decide

/-- A bracketed list and one that is not. -/
theorem witness_BracketedRunsComplete :
    bracketed State.reset.dir [.setpx 0 0, .beginrd, .rdpx, .endrd, .pxw 0] = true ∧
    bracketed State.reset.dir [.beginrd, .pxw 1] = false := by decide

theorem witness_SampledBytesAreNotInterpreted :
    completes (request Params.reference .rdpx (before .read .pixelRead .defaultLR [0x12, 0x34])) = true := by decide

theorem witness_DataBusNeverUsedBeforeDriven :
    (legal.all fun c => completes (request Params.reference c.1 c.2)) = true := by decide

theorem witness_BusDoesNotDependOnSelectPolarity :
    (legal.all fun c => completes (request Params.reference c.1 c.2)
      && c.2.lines.cd == Params.reference.dataLevel) = true := by decide

theorem witness_CoordinatesPassUninterpreted :
    (before .write .idle .defaultLR).lines.wr = .high ∧ (before .write .idle .defaultLR).dir = .write ∧
    (before .write .idle (.customLR 50 60)).lines.wr = .high ∧ (before .write .idle (.customLR 50 60)).dir = .write := by
  decide

theorem witness_ByteTransfersPerRequest :
    (legal.all fun c => completes (request Params.reference c.1 c.2) && c.2.lines == Lines.fullIdle) = true :=
  legal_request_completes

theorem witness_LowerRightBoundReprogrammedOnce :
    Params.reference.cdCmdLevel = .low ∧ State.reset.lines = Lines.fullIdle ∧ State.reset.dir = .write := by decide

theorem witness_ResetToFullWidthNeverSuppressed :
    completes (request Params.reference .rstfw State.reset) = true ∧
    completes (request Params.reference .rstfw (before .write .pixelWrite .defaultLR)) = true := by decide

theorem witness_PixelByPixelNeverSendsLowerRight :
    let s := before .write .idle .defaultLR
    Params.reference.cdCmdLevel = .low ∧ s.lines = Lines.fullIdle ∧ s.dir = .write ∧ s.win = .defaultLR ∧
    pixelByPixel s.mode [.setpx 5 7, .beginpx, .pxw 0xF800, .pxrun 0x001F 2, .dat2 1 2, .datf 3, .wrb 4, .wrb 5, .setpx 6 7]
      = true := by decide

theorem witness_StreamSendsDataOnly :
    let l : List Instr := [.pxw 0xF800, .pxrun 0x001F 2, .dat2 1 2, .datf 3, .wrb 4]
    Params.reference.cdCmdLevel = .low ∧ State.reset.lines = Lines.fullIdle ∧ l.all isDataWrite = true ∧
    completes (requests Params.reference l State.reset) = true := by decide

theorem witness_BulkTransferIsTheSimpleLoop :
    Params.reference.cdCmdLevel = .low ∧ State.reset.lines = Lines.fullIdle ∧ State.reset.dir = .write := by decide

/-- What the three statements below assume of the parameters. -/
theorem witness_window_commands_differ :
    Params.reference.cdCmdLevel = .low ∧ Params.reference.opCaset ≠ Params.reference.opPaset ∧
    Params.reference.opCaset ≠ Params.reference.opRamwr ∧ Params.reference.opPaset ≠ Params.reference.opRamwr := by decide

/-- A SETWIN and then a BEGINPX from reset: the belief claims an end column, and a pixel-write stream is open. -/
theorem witness_custom_belief (row0 : Word16) :
    ∃ s : State, requests Params.reference [.setwin 10 20 50 60, .beginpx] State.reset = .next s ∧ Quiescent s ∧
      s.win = .customLR 50 60 ∧ s.mode = .pixelWrite ∧ BeliefTrue Params.reference row0 s ∧
      completes (request Params.reference (.pxw 0xF800) s) = true ∧ completes (request Params.reference (.setpx 5 7) s) = true :=
  ⟨_, rfl, by decide, rfl, rfl,
    fun _ => ⟨rfl, by change some (joinBytes (hiByte 50) (loByte 50)) = some 50; rfl, trivial, fun _ => rfl⟩, by decide, by decide⟩

/-- A RSTFW from reset, with the end row at its default then: assumption (c) holds, the belief claims both bounds, and a second
RSTFW and the other requests complete. -/
theorem witness_default_belief :
    ∃ s : State, requests Params.reference [.rstfw] State.reset = .next s ∧ Quiescent s ∧ s.win = .defaultLR ∧
      BeliefTrue Params.reference 319 s ∧ (∀ d : Byte, RowAtDefault Params.reference 319 (programmed Params.reference d s)) ∧
      ([.setwin 10 20 50 60, .rstfw, .setpx 5 7, .beginpx] : List Instr).all
        (fun i => completes (request Params.reference i s)) = true :=
  ⟨_, rfl, by decide, rfl,
    fun _ => ⟨rfl, by change some (joinBytes (hiByte 239) (loByte 239)) = some 239; rfl, rfl, fun h => by cases h⟩,
    fun _ => rfl, by decide⟩

/-- Both kinds: a request that needs no assumption about the end row, and RSTFW with it. -/
theorem witness_RequestKeepsBeliefTrue :
    (∃ s : State, Quiescent s ∧ BeliefTrue Params.reference 7 s ∧ completes (request Params.reference (.pxw 0xF800) s) = true) ∧
    (∃ s : State, Quiescent s ∧ BeliefTrue Params.reference 319 s ∧
      (∀ d : Byte, RowAtDefault Params.reference 319 (programmed Params.reference d s)) ∧
      completes (request Params.reference .rstfw s) = true) := by
  obtain ⟨s, -, hq, -, -, hb, hc, -⟩ := witness_custom_belief 7
  obtain ⟨t, -, hq', -, hb', hr, hc'⟩ := witness_default_belief
  simp only [List.all_cons, Bool.and_eq_true] at hc'
  exact ⟨⟨s, hq, hb, hc⟩, t, hq', hb', hr, hc'.2.1⟩

theorem witness_LowerRightResetProgramsBothBounds :
    ∃ s : State, s.lines = Lines.fullIdle ∧ BeliefTrue Params.reference 7 s ∧ s.win ≠ .defaultLR ∧
      completes (request Params.reference (.setpx 5 7) s) = true := by
  obtain ⟨s, -, hq, hw, -, hb, -, hc⟩ := witness_custom_belief 7
  exact ⟨s, hq.1, hb, by simp [hw], hc⟩

/-- All clauses: SETWIN, RSTFW and SETPX in DefaultLR, and a data write in an open stream. -/
theorem witness_OnlyResetOrRawDataProgramsEndRow :
    (∃ s : State, s.lines = Lines.fullIdle ∧ BeliefTrue Params.reference 319 s ∧ s.win = .defaultLR ∧
      ([.setwin 10 20 50 60, .rstfw, .setpx 5 7, .beginpx] : List Instr).all
        (fun i => completes (request Params.reference i s)) = true) ∧
    (∃ s : State, Quiescent s ∧ BeliefTrue Params.reference 7 s ∧ ¬ (s.mode = .idle ∧ isDataWrite (.pxw 0xF800) = true) ∧
      completes (request Params.reference (.pxw 0xF800) s) = true) := by
  obtain ⟨s, -, hq, -, hm, hb, hc, -⟩ := witness_custom_belief 7
  obtain ⟨t, -, hq', hw, hb', -, hc'⟩ := witness_default_belief
  exact ⟨⟨t, hq'.1, hb', hw, hc'⟩, s, hq, hb, by simp [hm], hc⟩

end Sys2Proof.Tests
end

section
/-! SUPPORT. Which events of a request turn the bus (10_state.md R26), and from that the obligation on the Bus Direction. -/

namespace Sys2Proof.Machine

open Sys2Proof.Safety

/-! ## The shared operations emit no direction event -/

section
variable (p : Params) (m : Dir)

@[simp] theorem dir_notMem_strobeEvents : .dir m ∉ strobeEvents p := by
  unfold strobeEvents pulseEvents
  split <;> simp

@[simp] theorem dir_notMem_writeEvents (b : Byte) : .dir m ∉ writeEvents p b := by simp [writeEvents]

@[simp] theorem dir_notMem_readEvents (v : Byte) : .dir m ∉ readEvents p v := by simp [readEvents]

@[simp] theorem dir_notMem_commandEvents (b : Byte) : .dir m ∉ commandEvents p b := by simp [commandEvents]

@[simp] theorem dir_notMem_pairEvents (hi lo : Byte) : .dir m ∉ pairEvents p hi lo := by simp [pairEvents]

@[simp] theorem dir_notMem_fastEvents (b : Byte) : .dir m ∉ fastEvents p b := by simp [fastEvents]

@[simp] theorem dir_notMem_wordEvents (v : Word16) : .dir m ∉ wordEvents p v := dir_notMem_pairEvents p m _ _

@[simp] theorem dir_notMem_startEvents (opcode : Byte) (v : Word16) : .dir m ∉ startEvents p opcode v := by
  simp [startEvents]

@[simp] theorem dir_notMem_rangeEvents (opcode : Byte) (v1 v2 : Word16) : .dir m ∉ rangeEvents p opcode v1 v2 := by
  simp [rangeEvents]

@[simp] theorem dir_notMem_lrResetEvents : .dir m ∉ lrResetEvents p := by simp [lrResetEvents]

end

/-! ## The direction events of a request -/

/-- A request turns the bus only as BEGINRD, to Read, or as ENDRD, to Write (R26, R142, R145). -/
theorem dir_mem_bodyEvents {p : Params} {s : State} {i : Instr} {m : Dir} :
    .dir m ∈ bodyEvents p s i ↔ (i = .beginrd ∧ m = .read) ∨ (i = .endrd ∧ m = .write) := by
  cases i
  case setpx => by_cases hw : s.win = .defaultLR <;> simp [bodyEvents, hw]
  case pxrun => simp [bodyEvents, List.mem_flatten, List.mem_replicate]
  all_goals simp [bodyEvents]

/-- The chip-select events around the body of a request turn nothing. -/
theorem dir_mem_requestEvents {p : Params} {s : State} {i : Instr} {m : Dir} :
    .dir m ∈ requestEvents p s i ↔ (i = .beginrd ∧ m = .read) ∨ (i = .endrd ∧ m = .write) := by
  simp [requestEvents, dir_mem_bodyEvents]

/-! ## The obligation -/

/-- Settles O32: a completing request leaves `stateAfter`, whose `dir` is `dirAfter` and whose new events are the request's. -/
theorem directionWrittenByReadBracketOnly : Obligations.DirectionWrittenByReadBracketOnly := by
  intro i s t h
  rw [exec_eq_request, request_next] at h
  obtain ⟨hneeded, rfl⟩ := h
  have hdir : (stateAfter Config.params i s).dir = dirAfter i s.dir := rfl
  simp only [hdir, newEvents_stateAfter, dir_mem_requestEvents]
  refine ⟨hneeded, ?beginrd, ?endrd, ?other⟩
  case beginrd => rintro rfl; simp [dirAfter]
  case endrd => rintro rfl; simp [dirAfter]
  case other => intro hbegin hend; simp [dirAfter, hbegin, hend]

end Sys2Proof.Machine
end

section
/-! SUPPORT. The delays among the events of a request (41_byte_transfer.md R123), and from that the obligation on their lengths. -/

namespace Sys2Proof.Machine

/-! ## The delays of the shared operations: the pulse of a write strobe, the settling time of a read -/

section
variable (p : Params) (n : Nat)

/-- The one delay of a write strobe is the pulse, left out when its length is 0 (R109). -/
@[simp] theorem delay_mem_strobeEvents : .delay n ∈ strobeEvents p ↔ n = p.tWrPulse ∧ p.tWrPulse ≠ 0 := by
  unfold strobeEvents pulseEvents
  split
  case isTrue hpos => simp [hpos.ne']
  case isFalse hzero => simp [Nat.eq_zero_of_not_pos hzero]

@[simp] theorem delay_mem_writeEvents (b : Byte) :
    .delay n ∈ writeEvents p b ↔ n = p.tWrPulse ∧ p.tWrPulse ≠ 0 := by simp [writeEvents]

/-- The one delay of a read is the settling time (R121). -/
@[simp] theorem delay_mem_readEvents (v : Byte) : .delay n ∈ readEvents p v ↔ n = p.tRdSettle := by simp [readEvents]

@[simp] theorem delay_mem_commandEvents (b : Byte) :
    .delay n ∈ commandEvents p b ↔ n = p.tWrPulse ∧ p.tWrPulse ≠ 0 := by simp [commandEvents]

@[simp] theorem delay_mem_pairEvents (hi lo : Byte) :
    .delay n ∈ pairEvents p hi lo ↔ n = p.tWrPulse ∧ p.tWrPulse ≠ 0 := by simp [pairEvents]

@[simp] theorem delay_mem_fastEvents (b : Byte) :
    .delay n ∈ fastEvents p b ↔ n = p.tWrPulse ∧ p.tWrPulse ≠ 0 := by simp [fastEvents]

@[simp] theorem delay_mem_wordEvents (v : Word16) :
    .delay n ∈ wordEvents p v ↔ n = p.tWrPulse ∧ p.tWrPulse ≠ 0 := delay_mem_pairEvents p n _ _

@[simp] theorem delay_mem_startEvents (opcode : Byte) (v : Word16) :
    .delay n ∈ startEvents p opcode v ↔ n = p.tWrPulse ∧ p.tWrPulse ≠ 0 := by simp [startEvents]

@[simp] theorem delay_mem_rangeEvents (opcode : Byte) (v1 v2 : Word16) :
    .delay n ∈ rangeEvents p opcode v1 v2 ↔ n = p.tWrPulse ∧ p.tWrPulse ≠ 0 := by simp [rangeEvents]

@[simp] theorem delay_mem_lrResetEvents : .delay n ∈ lrResetEvents p ↔ n = p.tWrPulse ∧ p.tWrPulse ≠ 0 := by
  simp [lrResetEvents]

end

/-! ## The delays of a request -/

/-- The body of a request is made of the shared operations, so its delays are theirs. SETPX may hold the lower-right reset, PXRUN
repeats one pair, and BEGINRD both writes and reads. -/
theorem delay_of_mem_bodyEvents {p : Params} {s : State} {i : Instr} {n : Nat} (h : .delay n ∈ bodyEvents p s i) :
    n = p.tRdSettle ∨ (n = p.tWrPulse ∧ p.tWrPulse ≠ 0) := by
  cases i
  case rdb | rdpx => exact .inl (by simpa [bodyEvents] using h)
  case beginrd => exact (by simpa [bodyEvents] using h : _ ∨ _).symm
  case endrd => simp [bodyEvents] at h
  case setpx =>
    refine .inr ?_
    by_cases hw : s.win = .defaultLR <;> simpa [bodyEvents, hw] using h
  case pxrun =>
    simp only [bodyEvents, List.mem_flatten, List.mem_replicate] at h
    obtain ⟨_, ⟨-, rfl⟩, hmem⟩ := h
    exact .inr ((delay_mem_wordEvents p n _).mp hmem)
  all_goals exact .inr (by simpa [bodyEvents] using h)

/-- The chip-select events around the body of a request delay nothing. -/
theorem delay_mem_requestEvents {p : Params} {s : State} {i : Instr} {n : Nat} :
    .delay n ∈ requestEvents p s i ↔ .delay n ∈ bodyEvents p s i := by
  simp [requestEvents]

/-! ## The obligation -/

/-- Settles O37: the new events of a completing request are `requestEvents`, whose delays are those of its body. -/
theorem delayLengthsAreConstants : Obligations.DelayLengthsAreConstants := by
  intro p i s t n h hmem
  obtain ⟨-, rfl⟩ := request_next.mp h
  rw [newEvents_stateAfter, delay_mem_requestEvents] at hmem
  exact delay_of_mem_bodyEvents hmem

end Sys2Proof.Machine
end

section
/-! SUPPORT. The data pair in the spelling of R131, and what BEGINPX does at the machine's parameters (R138), and from these the
obligations on the two transactions. -/

namespace Sys2Proof.Machine

open Sys2Proof.Safety
open Sys2Proof.Machine.Spelling

/-! ## A data pair -/

/-- The events of a data pair written out: CD at the data level, then a whole byte write for each byte (R131, R120, R109). -/
theorem pairEvents_eq_spelled (p : Params) (hi lo : Byte) : pairEvents p hi lo =
    [.line .cd p.dataLevel, D hi, WR0] ++ pulseEvents p ++ [WR1, D lo, WR0] ++ pulseEvents p ++ [WR1] := by
  simp [pairEvents, writeEvents, strobeEvents]

/-- Settles O13: the events listed are `pairEvents`, which `sendDataPair` adds whatever the two bytes and CD are, and which move
the two bytes as data when chip-select is low. -/
theorem dataPairSendsTwoFullBytes : Obligations.DataPairSendsTwoFullBytes := by
  intro p hi lo s pulse events
  have hevents : events = pairEvents p hi lo := (pairEvents_eq_spelled p hi lo).symm
  rw [hevents]
  exact ⟨sendDataPair_eq p s hi lo, fun hcs hwr => bytesFrom_pairEvents p (Scan.ofState s) hi lo hwr hcs⟩

/-! ## A request at the machine's parameters -/

/-- A request completes when the Bus Direction fits (R182). -/
theorem exec_of_dir_eq {i : Instr} {s : State} (h : s.dir = neededDir i) :
    exec i s = .next (stateAfter Config.params i s) := by
  rw [exec_eq_request]
  exact request_next.mpr ⟨h, rfl⟩

/-- A request is a contract violation when the Bus Direction does not fit (R182). -/
theorem exec_of_dir_ne {i : Instr} {s : State} (h : s.dir ≠ neededDir i) :
    exec i s = .fault (.contractViolation i.mnemonic s.dir) := by
  rw [exec_eq_request]
  exact request_fault.mpr ⟨h, rfl⟩

/-- The machine has no write pulse delay and its command level is low, so a command byte is the five events of R130. -/
theorem commandEvents_config (opcode : Byte) : commandEvents Config.params opcode = command opcode := rfl

/-- The state BEGINPX leaves: the command's effect on the lines and the bus, and the opened stream; `win` is not written (R138). -/
theorem stateAfter_beginpx (s : State) : stateAfter Config.params .beginpx s =
    { s with
      lines := { s.lines with cs := .high, cd := .high, wr := .high }
      dbus := Config.opRamwr
      mode := .pixelWrite
      trace := s.trace ++ (CS0 :: (command Config.opRamwr ++ [CS1])) } := by
  have hresponses : s.responses ++ responseOf s .beginpx = s.responses := List.append_nil _
  unfold stateAfter
  rw [hresponses]
  rfl

/-- Settles O17: in Write the request leaves `stateAfter`, in Read it is a contract violation; the word decodes by the opcode
map. -/
theorem beginPixelStreamSendsCommand : Obligations.BeginPixelStreamSendsCommand := by
  intro s
  refine ⟨fun hwrite => ?write, fun hread => ?read, rfl⟩
  case write => rw [exec_of_dir_eq hwrite, stateAfter_beginpx]; rfl
  case read =>
    have hne : s.dir ≠ neededDir .beginpx := by simp [hread, neededDir]
    rw [exec_of_dir_ne hne, hread]
    rfl

end Sys2Proof.Machine
end

section
/-! SUPPORT. Which part of the state the events of a request depend on (43_window.md R167), and from that the obligation on
elision. -/

namespace Sys2Proof.Machine

open Sys2Proof.Safety

/-! ## What the events of a request depend on -/

section
variable (p : Params) {s s' : State}

/-- The events of a request depend on the environment's bytes to come, and for SETPX on whether the belief is DefaultLR; on
nothing else of the state. -/
theorem bodyEvents_congr {i : Instr} (ha : s'.answers = s.answers) (hd : s'.draws = s.draws)
    (hw : ∀ x y, i = .setpx x y → (s'.win = .defaultLR ↔ s.win = .defaultLR)) :
    bodyEvents p s' i = bodyEvents p s i := by
  obtain ⟨hfirst, hanswers, hdraws⟩ := draw_congr s s' ha hd
  cases i
  case setpx x y => simp only [bodyEvents, hw x y rfl]
  case beginrd | rdb => simp only [bodyEvents, hfirst]
  case rdpx =>
    obtain ⟨hsecond, -, -⟩ := draw_congr (draw s).2 (draw s').2 hanswers hdraws
    simp only [bodyEvents, hfirst, hsecond]
  all_goals rfl

/-- Outside DefaultLR the body of SETPX is the lower-right reset and then the body it has in DefaultLR (R164). -/
theorem bodyEvents_setpx_of_win_ne (x y : Word16) (hs : s.win = .defaultLR) (hs' : s'.win ≠ .defaultLR) :
    bodyEvents p s' (.setpx x y) = lrResetEvents p ++ bodyEvents p s (.setpx x y) := by
  simp [bodyEvents, hs, hs']

@[simp] theorem newEvents_lrReset (s : State) : newEvents s (lrReset p s) = lrResetEvents p := by
  simp [newEvents, lrReset_eq]

/-- Whether a request completes depends on the Bus Direction alone (R182). -/
theorem exists_request_next {i : Instr} {t : State} (h : request p i s = .next t) (hdir : s'.dir = s.dir) :
    ∃ u, request p i s' = .next u ∧ newEvents s' u = requestEvents p s' i := by
  obtain ⟨hneeded, -⟩ := request_next.mp h
  exact ⟨stateAfter p i s', request_next.mpr ⟨hdir.trans hneeded, rfl⟩, newEvents_stateAfter p i s'⟩

end

/-! ## The obligation -/

/-- Settles O36: `mode` and `win` are no part of the Bus Direction, so the request completes again; its events are its body
between the chip-select events, and `bodyEvents_congr` and `bodyEvents_setpx_of_win_ne` compare the bodies. -/
theorem onlySetPixelElides : Obligations.OnlySetPixelElides := by
  intro p s t w
  refine ⟨fun i m h hw => ?sameEvents, fun x y hs hw h => ?setpxResets⟩
  case sameEvents =>
    obtain ⟨u, hu, hevents⟩ := exists_request_next p (s' := { s with mode := m, win := w }) h rfl
    obtain ⟨-, rfl⟩ := request_next.mp h
    have hbody : bodyEvents p { s with mode := m, win := w } i = bodyEvents p s i := bodyEvents_congr p rfl rfl hw
    exact ⟨u, hu, by rw [hevents, newEvents_stateAfter, requestEvents, requestEvents, hbody]⟩
  case setpxResets =>
    obtain ⟨u, hu, hevents⟩ := exists_request_next p (s' := { s with win := w }) h rfl
    obtain ⟨-, rfl⟩ := request_next.mp h
    have hbody : bodyEvents p { s with win := w } (.setpx x y) = lrResetEvents p ++ bodyEvents p s (.setpx x y) :=
      bodyEvents_setpx_of_win_ne p x y hs hw
    exact ⟨u, hu, by simp [hevents, requestEvents, hbody]⟩

end Sys2Proof.Machine
end

section
/-! SUPPORT. The decoder and the encoder of request words (30_encoding.md R84 to R86): what each reads of a word, and from that the
obligations on the encoding. -/

namespace Sys2Proof

open Sys2Proof.Machine

/-! ## The opcode map -/

/-- A code selects no request exactly when it is none of the table's (R86). -/
theorem ofOp_eq_none_iff (op : Byte) : Mnemonic.ofOp op = none ↔ op ∉ Mnemonic.all.map Mnemonic.op := by
  simp [Mnemonic.ofOp, List.find?_eq_none]

/-- A word decodes to a request exactly when it has the request's operation code and its operands (R84). -/
theorem decode_eq_ok_iff {w : RequestWord} {i : Instr} :
    decode w = .ok i ↔ opField w = i.mnemonic.op ∧ i.mnemonic.operandsOf w = i := by
  constructor
  · intro h
    unfold decode at h
    split at h
    next m hm =>
      cases h
      exact ⟨by rw [mnemonic_operandsOf, op_of_ofOp hm], by rw [mnemonic_operandsOf]⟩
    next => cases h
  · rintro ⟨hop, hoperands⟩
    simp [decode, hop, hoperands]

/-! ## The word of a request -/

@[simp] theorem opField_encode (i : Instr) : opField (encode i) = i.mnemonic.op := by
  cases i <;> exact opField_packWord ..

/-- The operands of a request stand in its word where the table says (R82, R84). -/
@[simp] theorem operandsOf_encode (i : Instr) : i.mnemonic.operandsOf (encode i) = i := by
  cases i <;> simp [encode, Instr.mnemonic, Mnemonic.operandsOf]

/-- Settles O2: the word of a request has its operation code and its operands. -/
theorem decodeOfEncodeIsIdentity : Obligations.DecodeOfEncodeIsIdentity := fun i =>
  decode_eq_ok_iff.mpr ⟨opField_encode i, operandsOf_encode i⟩

/-! ## The bits a request uses -/

/-- The word built from a request's operation code and its operands is the given word on the bits the table names (R85). -/
theorem encode_operandsOf {w : RequestWord} {m : Mnemonic} (h : opField w = m.op) :
    encode (m.operandsOf w) = w &&& m.usedBits := by
  conv_rhs => rw [← packWord_fields w, h]
  cases m <;>
    simp [encode, Mnemonic.operandsOf, Instr.mnemonic, Mnemonic.usedBits, packWord_and, Laws.EncodingShape.and_field,
      Laws.EncodingShape.and_op, zext16_loByte]

/-- Settles O3: the request of a word is built from the word's own operation code and operands. -/
theorem encodeOfDecodeKeepsUsedBits : Obligations.EncodeOfDecodeKeepsUsedBits := by
  intro w i h
  obtain ⟨hop, hoperands⟩ := decode_eq_ok_iff.mp h
  rw [← encode_operandsOf hop, hoperands]

/-- Every request uses its whole operation code. -/
@[simp] theorem opField_and_usedBits (w : RequestWord) (m : Mnemonic) : opField (w &&& m.usedBits) = opField w := by
  rw [← packWord_fields w]
  cases m <;> simp [Mnemonic.usedBits, packWord_and, Laws.EncodingShape.and_op]

/-- The encoder writes on the used bits alone, so two words that agree there and on the operation code have the same request. -/
theorem decode_eq_ok_iff_encode {w : RequestWord} {i : Instr} : decode w = .ok i ↔ encode i = w &&& i.mnemonic.usedBits := by
  constructor
  · exact encodeOfDecodeKeepsUsedBits w i
  · intro h
    have hop : opField w = i.mnemonic.op := by rw [← opField_and_usedBits w i.mnemonic, ← h, opField_encode]
    refine decode_eq_ok_iff.mpr ⟨hop, ?_⟩
    have hencode : encode (i.mnemonic.operandsOf w) = encode i := (encode_operandsOf hop).trans h.symm
    have hok := decodeOfEncodeIsIdentity (i.mnemonic.operandsOf w)
    rw [hencode, decodeOfEncodeIsIdentity i] at hok
    exact (Except.ok.inj hok).symm

/-- Settles O4: whether a word decodes to a request is a matter of the bits the table names for it. -/
theorem unusedBitsHaveNoEffect : Obligations.UnusedBitsHaveNoEffect := by
  intro w w' i h hagree
  rw [decode_eq_ok_iff_encode] at h ⊢
  rw [hagree, h]

/-! ## Reserved words -/

/-- A step on a waiting request word carries the word out. -/
theorem step_request {s : State} {w : RequestWord} {rest : List Input} (hs : s.inputs = .request w :: rest) :
    step s = serve (.request w) { s with inputs := rest } := by
  simp [step, hs]

/-- Settles O5: a word is refused when its code selects no request; otherwise a request runs, and no request refuses. -/
theorem reservedOperationCodesAreRefused : Obligations.ReservedOperationCodesAreRefused := by
  intro w s rest hs
  rw [step_request hs]
  refine Iff.trans ?_ (ofOp_eq_none_iff (opField w))
  cases hop : Mnemonic.ofOp (opField w) with
  | none => simp [serve, decode, hop]
  | some m => simp [serve, decode, hop, exec_eq_request, request_not_refused]

/-! ## Words and lines written out -/

/-- Settles O1, by running the decoder on the eight words. -/
theorem specWordsDecode : Obligations.SpecWordsDecode := by
  refine ⟨?_, ?_, ?_, ?_, ?_, ?_, ?_, ?_⟩ <;> rfl

/-- An operand fits the width of its own type. -/
@[simp] theorem operandsFit_toNat {w : Nat} (ws : List Nat) (v : BitVec w) (ns : List Nat) :
    operandsFit (w :: ws) (v.toNat :: ns) = operandsFit ws ns := by
  simp [operandsFit, v.isLt]

theorem line_wellFormed (i : Instr) : i.line.wellFormed = true := by
  cases i <;> simp [Line.wellFormed, Instr.line, Instr.mnemonic, LineHead.operandWidths, operandsFit.eq_1]

/-- Settles O6: the line is well formed, and its numbers are read back as the operands they came from. -/
theorem lineOfRequestAssembles : Obligations.LineOfRequestAssembles := by
  intro i
  rw [Line.requests, if_pos (line_wellFormed i)]
  cases i <;> simp [Instr.line, Instr.mnemonic]

end Sys2Proof
end

section
/-! SUPPORT. The register image read backwards (10_state.md R30): it is a row of fields, and each field's code is injective. -/

namespace Sys2Proof.Machine

/-- Two rows of fields of the same widths are equal field by field. -/
theorem append_inj {v w : Nat} {x x' : BitVec v} {y y' : BitVec w} (h : x ++ y = x' ++ y') : x = x' ∧ y = y' := by
  have hx := congrArg (BitVec.extractLsb' w v) h
  have hy := congrArg (BitVec.extractLsb' 0 w) h
  rw [BitVec.extractLsb'_append_eq_left, BitVec.extractLsb'_append_eq_left] at hx
  rw [BitVec.extractLsb'_append_eq_right, BitVec.extractLsb'_append_eq_right] at hy
  exact ⟨hx, hy⟩

theorem Level.bit_inj {u v : Level} (h : u.bit = v.bit) : u = v := by
  revert h
  cases u <;> cases v <;> decide

theorem Dir.bit_inj {d e : Dir} (h : d.bit = e.bit) : d = e := by
  revert h
  cases d <;> cases e <;> decide

theorem Mode.bits_inj {m n : Mode} (h : m.bits = n.bits) : m = n := by
  revert h
  cases m <;> cases n <;> decide

/-- In CustomLR the field holds `x2`, whatever stands for a field without meaning. -/
theorem x2Field_of_tag {w : Win} (h : w.tag = 2) (f f' : Word16) : w.x2Field f = w.x2Field f' := by
  cases w with
  | customLR => rfl
  | unknown | defaultLR => exact absurd h (by decide)

/-- Settles O7: the image is a row of ten fields and a constant, which is taken apart from its low end. -/
theorem registerImageDeterminesState : Obligations.RegisterImageDeterminesState := by
  intro f f' s s' h
  obtain ⟨h, hcs⟩ := append_inj h
  obtain ⟨h, hcd⟩ := append_inj h
  obtain ⟨h, hwr⟩ := append_inj h
  obtain ⟨h, hrd⟩ := append_inj h
  obtain ⟨h, hrst⟩ := append_inj h
  obtain ⟨h, hdir⟩ := append_inj h
  obtain ⟨h, hmode⟩ := append_inj h
  obtain ⟨h, htag⟩ := append_inj h
  obtain ⟨h, -⟩ := append_inj h
  obtain ⟨hdbus, hx2⟩ := append_inj h
  have hlines : s.lines = s'.lines := by
    rw [Lines.mk.injEq]
    exact ⟨Level.bit_inj hcs, Level.bit_inj hcd, Level.bit_inj hwr, Level.bit_inj hrd, Level.bit_inj hrst⟩
  refine ⟨hlines, hdbus, Dir.bit_inj hdir, Mode.bits_inj hmode, htag, fun hcustom => ?_⟩
  rw [hx2]
  exact x2Field_of_tag (htag ▸ hcustom) f' f

end Sys2Proof.Machine
end

section
/-! SUPPORT. One step of the machine (00_scope.md R10, R16, R17): idling, a reset, a request; and runs of steps. -/

namespace Sys2Proof.Machine

open Sys2Proof.Safety

/-! ## The three kinds of step -/

/-- Settles O9: with no input the step is `portIdle`. -/
theorem stepIdlesWithAllStateKept : Obligations.StepIdlesWithAllStateKept := by
  intro s hs
  rw [step, hs]
  rfl

/-- A step on a waiting reset resets the block (R200). -/
theorem step_reset {s : State} {rest : List Input} (hs : s.inputs = .reset :: rest) :
    step s = .next (resetBlock { s with inputs := rest }) := by
  rw [step, hs]
  rfl

/-- Settles O10: the byte and the counter are those of the free byte the reset takes. -/
theorem resetInputRestoresResetState : Obligations.ResetInputRestoresResetState := fun s _ hs =>
  ⟨Config.freeByte s.draws, s.draws + 1, step_reset hs⟩

/-- Settles O8: the step serves the word, and a word that decodes is served by its request. -/
theorem stepExecutesDecodedRequest : Obligations.StepExecutesDecodedRequest := by
  intro s w rest i hs hw
  rw [step_request hs]
  simp [serve, hw]

/-- What a step that completes has done: idled, reset the block, or carried out a request that fits the Bus Direction. -/
theorem step_next {s t : State} (h : step s = .next t) :
    t = s ∨ (∃ rest, t = resetBlock { s with inputs := rest }) ∨
      ∃ i rest, s.dir = neededDir i ∧ t = stateAfter Config.params i { s with inputs := rest } := by
  match hs : s.inputs with
  | [] =>
    rw [stepIdlesWithAllStateKept s hs] at h
    cases h
    exact .inl rfl
  | .reset :: rest =>
    rw [step_reset hs] at h
    cases h
    exact .inr (.inl ⟨rest, rfl⟩)
  | .request w :: rest =>
    rw [step_request hs, serve] at h
    split at h
    next i hw =>
      rw [exec_eq_request] at h
      obtain ⟨hdir, rfl⟩ := request_next.mp h
      exact .inr (.inr ⟨i, rest, hdir, rfl⟩)
    next => cases h

/-- Settles O11: each field of the reset state is the value R35 gives. -/
theorem resetStateHoldsSpecValues : Obligations.ResetStateHoldsSpecValues := ⟨rfl, rfl, rfl, rfl, rfl⟩

/-! ## Runs of steps -/

/-- A step on the word of a request executes the request on the state with the other words waiting. -/
theorem step_encode (i : Instr) (s : State) (rest : List Input) :
    step { s with inputs := .request (encode i) :: rest } = request Config.params i { s with inputs := rest } := by
  rw [stepExecutesDecodedRequest _ (encode i) rest i rfl (decodeOfEncodeIsIdentity i), exec_eq_request]

/-- Settles O12, by induction on the list: the words still waiting have no part in the request the first of them encodes. -/
theorem encodedRunIsRequestRun : Obligations.EncodedRunIsRequestRun := by
  intro l
  induction l with
  | nil => intro s; rfl
  | cons i l ih =>
    intro s
    have hstep := step_encode i s (l.map fun i => .request (encode i))
    by_cases hd : s.dir = neededDir i
    · have hnext : request Config.params i { s with inputs := l.map fun i => .request (encode i) } =
          .next { stateAfter Config.params i s with inputs := l.map fun i => .request (encode i) } :=
        request_next.mpr ⟨hd, stateAfter_inputs ..⟩
      rw [requests_cons (show ({ s with inputs := [] } : State).dir = _ from hd), stateAfter_inputs, ← ih]
      simp only [List.length_cons, List.map_cons, Host.Core.run]
      rw [show core.step = step from rfl, hstep, hnext]
    · have hfault (q : List Input) :
          request Config.params i { s with inputs := q } = .fault (.contractViolation i.mnemonic s.dir) :=
        request_fault.mpr ⟨hd, rfl⟩
      simp only [List.length_cons, List.map_cons, Host.Core.run, requests]
      rw [show core.step = step from rfl, hstep, hfault, hfault]
      rfl

end Sys2Proof.Machine
end

section
/-! SUPPORT. The obligations on the micro-operations and on the whole next state of each request. The equations of Laws/Ops.lean
and `stateAfter` say what they do; at the machine's parameters their event lists are the ones the spec prints. -/

namespace Sys2Proof.Machine

open Sys2Proof.Safety
open Sys2Proof.Machine.Spelling

/-! ## Micro-operations -/

/-- Settles O14: `writeByte_eq`, whose events are the drive and the strobe. -/
theorem byteWriteDrivesThenStrobes : Obligations.ByteWriteDrivesThenStrobes := fun p b s => writeByte_eq p s b

/-- Settles O15: `readByte_eq`, whose events are those of one read strobe. -/
theorem byteReadSettlesThenSamples : Obligations.ByteReadSettlesThenSamples := readByte_eq

/-- Settles O16: a listed answer is taken from the front. -/
theorem drawTakesTheNextAnswer : Obligations.DrawTakesTheNextAnswer := by
  intro s v rest hs
  simp [draw, hs]

/-! ## Requests that answer nothing

The state each statement writes out is `stateAfter` at the machine's parameters, where there is no pulse delay and CD is low for a
command: the two agree by computation. -/

/-- The next state of a request without a response, at the machine's parameters. -/
theorem exec_of_no_response {i : Instr} {s : State} (hdir : s.dir = neededDir i) (hresponse : responseOf s i = []) :
    exec i s = .next { stateAfter Config.params i s with responses := s.responses } := by
  rw [exec_of_dir_eq hdir, stateAfter, hresponse, List.append_nil]

/-- Settles O18: the pixel word is one data pair. -/
theorem pixelWordSendsHighThenLow : Obligations.PixelWordSendsHighThenLow := fun _ _ hdir => exec_of_no_response hdir rfl

/-- Settles O19: the two bytes are one data pair. -/
theorem rawDataPairSendsBothBytes : Obligations.RawDataPairSendsBothBytes := fun _ _ _ hdir => exec_of_no_response hdir rfl

/-- Settles O20: the fast transfer drives its byte once. -/
theorem fastTransferDrivesOnceStrobesTwice : Obligations.FastTransferDrivesOnceStrobesTwice := fun _ _ hdir =>
  exec_of_no_response hdir rfl

/-- Settles O21: the byte write holds no event on CD. -/
theorem rawByteLeavesSelectLine : Obligations.RawByteLeavesSelectLine := fun _ _ hdir => exec_of_no_response hdir rfl

/-- Settles O22: the command byte is not looked at. -/
theorem rawCommandLosesBelief : Obligations.RawCommandLosesBelief := fun _ _ hdir => exec_of_no_response hdir rfl

/-- Settles O28: the reset stands in the body exactly where the belief is not DefaultLR. -/
theorem setPixelProgramsTopLeft : Obligations.SetPixelProgramsTopLeft := fun _ _ _ hdir => exec_of_no_response hdir rfl

/-- Settles O29: `y2` stands in the belief and not in the body. -/
theorem setWindowSendsBothColumnBounds : Obligations.SetWindowSendsBothColumnBounds := fun _ _ _ _ _ hdir =>
  exec_of_no_response hdir rfl

/-- Settles O30: the body does not depend on the belief. -/
theorem resetToFullWidthSendsDefaults : Obligations.ResetToFullWidthSendsDefaults := fun _ hdir =>
  exec_of_no_response hdir rfl

/-- A count is 0 exactly when its number is. -/
theorem count_toNat_eq_zero {n : RepeatCount} : n.toNat = 0 ↔ n = 0 := (BitVec.toNat_inj (y := 0)).trans .rfl

/-- Settles O23: the lines, the bus and the belief are written when the count is not 0. -/
theorem bulkTransferRepeatsPixelWord : Obligations.BulkTransferRepeatsPixelWord := by
  intro color n s hdir
  rw [exec_of_no_response hdir rfl]
  simp only [stateAfter, linesAfter, dbusAfter, winAfter, count_toNat_eq_zero, ne_eq]
  rfl

/-- Settles O27: the body is the one direction event. -/
theorem endReadStreamTurnsBusBack : Obligations.EndReadStreamTurnsBusBack := fun _ hdir => exec_of_no_response hdir rfl

/-! ## Requests that read -/

section
variable (s : State)

@[simp] theorem draw_dbus : (draw s).2.dbus = s.dbus := by rw [draw_eq]
@[simp] theorem draw_dir : (draw s).2.dir = s.dir := by rw [draw_eq]
@[simp] theorem draw_mode : (draw s).2.mode = s.mode := by rw [draw_eq]
@[simp] theorem draw_win : (draw s).2.win = s.win := by rw [draw_eq]
@[simp] theorem draw_inputs : (draw s).2.inputs = s.inputs := by rw [draw_eq]
@[simp] theorem draw_responses : (draw s).2.responses = s.responses := by rw [draw_eq]

end

/-- Settles O24: taking the dummy byte changes the answers and the counter alone, which `stateAfter` takes from there. -/
theorem beginReadStreamTurnsBusThenReads : Obligations.BeginReadStreamTurnsBusThenReads := by
  intro s hdir
  rw [exec_of_no_response hdir rfl]
  simp only [draw_win, draw_inputs, draw_responses]
  rfl

/-- Settles O25: taking the two bytes changes the answers and the counter alone. -/
theorem readPixelWordReturnsHighThenLow : Obligations.ReadPixelWordReturnsHighThenLow := by
  intro s hdir hi lo
  rw [exec_of_dir_eq hdir]
  simp only [hi, lo, draw_dbus, draw_dir, draw_mode, draw_win, draw_inputs]
  rfl

/-- Settles O26: taking the byte changes the answers and the counter alone. -/
theorem rawReadReturnsByte : Obligations.RawReadReturnsByte := by
  intro s hdir
  rw [exec_of_dir_eq hdir]
  simp only [draw_dbus, draw_dir, draw_mode, draw_win, draw_inputs]
  rfl

/-! ## Events that do not depend on the state -/

/-- Settles O53: the events of RSTFW are written with the parameters alone. -/
theorem resetToFullWidthNeverSuppressed : Obligations.ResetToFullWidthNeverSuppressed := by
  intro p s s' t t' ht ht'
  obtain ⟨-, rfl⟩ := request_next.mp ht
  obtain ⟨-, rfl⟩ := request_next.mp ht'
  rw [newEvents_stateAfter, newEvents_stateAfter]
  rfl

end Sys2Proof.Machine
end

section
/-! SUPPORT. What holds of every completing request, field by field: legality, the transitions of `mode` and `win`, the frame of
each element, and the number of events. A request that completes leaves `stateAfter` (Laws/Requests.lean), so each is a fact
about one field of that. -/

namespace Sys2Proof.Machine

open Sys2Proof.Safety

/-! ## Legality -/

/-- Settles O31: the contract check, the first line of every request, compares `dir` with the needed direction alone. -/
theorem busDirectionDecidesLegality : Obligations.BusDirectionDecidesLegality := fun i s =>
  ⟨fun hdir => ⟨stateAfter Config.params i s, exec_of_dir_eq hdir⟩, exec_of_dir_ne⟩

/-- A request of the machine that completes leaves `stateAfter`. -/
theorem exec_next {i : Instr} {s t : State} :
    exec i s = .next t ↔ s.dir = neededDir i ∧ stateAfter Config.params i s = t := by
  rw [exec_eq_request, request_next]

/-- Settles O46, by induction on the list: the first request must fit, and the rest goes on in the direction it leaves. -/
theorem bracketedRunsComplete : Obligations.BracketedRunsComplete := by
  intro l
  induction l with
  | nil => exact fun s => ⟨fun _ => rfl, fun _ => ⟨s, rfl⟩⟩
  | cons i l ih =>
    intro s
    have hrest : (∃ t, requests Config.params l (stateAfter Config.params i s) = .next t) ↔
        bracketed (dirAfter i s.dir) l = true := ih _
    simp only [requests_cons_next, exists_and_left, hrest, bracketed, Bool.and_eq_true, beq_iff_eq, eq_comm (a := s.dir)]

/-! ## Transitions of `mode` and `win` -/

/-- Settles O33: `modeAfter` is the table. -/
theorem streamingModeTransitions : Obligations.StreamingModeTransitions := by
  intro i s t h
  obtain ⟨-, rfl⟩ := exec_next.mp h
  cases i <;> rfl

/-- Settles O34: `winAfter` is the table, the count of PXRUN being 0 exactly when its number is. -/
theorem windowBeliefTransitions : Obligations.WindowBeliefTransitions := by
  intro i s t h
  obtain ⟨-, rfl⟩ := exec_next.mp h
  cases i with
  | pxrun color n => simp only [stateAfter, winAfter, ne_eq, count_toNat_eq_zero]
  | setpx | setwin | rstfw | beginpx | pxw | beginrd | rdpx | endrd | cmd | dat2 | datf | wrb | rdb => rfl

/-! ## Frames -/

section
variable {p : Params} {i : Instr} {s : State}

theorem dirAfter_eq_self {d : Dir} (hbegin : i ≠ .beginrd) (hend : i ≠ .endrd) : dirAfter i d = d := by
  simp [dirAfter, hbegin, hend]

/-- `mode` is written where a command is sent and where the read stream ends (R146). -/
theorem modeAfter_eq_self {m : Mode}
    (h : i.mnemonic ∉ [.SETPX, .SETWIN, .RSTFW, .CMD, .BEGINPX, .BEGINRD, .ENDRD]) : modeAfter m i = m := by
  cases i with
  | pxw | pxrun | dat2 | datf | wrb | rdpx | rdb => rfl
  | setpx | setwin | rstfw | cmd | beginpx | beginrd | endrd => simp [Instr.mnemonic] at h

/-- `win` is written in the window requests, in CMD, and by data outside a stream (R169). -/
theorem winAfter_eq_self (h : i.mnemonic ∉ [.SETPX, .SETWIN, .RSTFW, .CMD])
    (hdata : isDataWrite i = true → s.mode ≠ .idle) : winAfter s i = s.win := by
  cases i with
  | setpx | setwin | rstfw | cmd => simp [Instr.mnemonic] at h
  | beginpx | beginrd | rdpx | rdb | endrd => rfl
  | pxw | pxrun | dat2 | datf | wrb => simp [winAfter, hdata rfl]

/-- `dbus` and WR are written where a byte is. -/
theorem dbusAfter_wr_eq_self {d : Byte} {ls : Lines} (h : i.mnemonic ∈ [.RDPX, .RDB, .ENDRD]) :
    dbusAfter p d i = d ∧ (linesAfter p ls i).wr = ls.wr := by
  cases i with
  | rdpx | rdb | endrd => exact ⟨rfl, rfl⟩
  | setpx | setwin | rstfw | beginpx | pxw | pxrun | beginrd | cmd | dat2 | datf | wrb => simp [Instr.mnemonic] at h

/-- CD is written where a select level is driven. -/
theorem linesAfter_cd_eq_self {ls : Lines} (h : i.mnemonic ∈ [.RDB, .ENDRD, .WRB]) :
    (linesAfter p ls i).cd = ls.cd := by
  cases i with
  | rdb | endrd | wrb => rfl
  | setpx | setwin | rstfw | beginpx | pxw | pxrun | beginrd | rdpx | cmd | dat2 | datf => simp [Instr.mnemonic] at h

/-- RD is written, and the environment's bytes are taken, where a byte is read. -/
theorem linesAfter_rd_drawn_eq_self {ls : Lines} (h : i.mnemonic ∉ [.BEGINRD, .RDPX, .RDB]) :
    (linesAfter p ls i).rd = ls.rd ∧ (drawn s i).answers = s.answers ∧ (drawn s i).draws = s.draws := by
  cases i with
  | beginrd | rdpx | rdb => simp [Instr.mnemonic] at h
  | pxrun color n =>
    refine ⟨?_, rfl, rfl⟩
    by_cases hn : n.toNat = 0 <;> simp [linesAfter, hn]
  | setpx | setwin | rstfw | beginpx | pxw | endrd | cmd | dat2 | datf | wrb => exact ⟨rfl, rfl, rfl⟩

theorem responseOf_eq_nil (hrdpx : i ≠ .rdpx) (hrdb : i ≠ .rdb) : responseOf s i = [] := by
  cases i with
  | rdpx | rdb => contradiction
  | setpx | setwin | rstfw | beginpx | pxw | pxrun | beginrd | endrd | cmd | dat2 | datf | wrb => rfl

/-- Every request releases CS and leaves RST. -/
theorem linesAfter_cs_rst {ls : Lines} : (linesAfter p ls i).cs = .high ∧ (linesAfter p ls i).rst = ls.rst := by
  cases i with
  | pxrun color n => by_cases hn : n.toNat = 0 <;> simp [linesAfter, hn]
  | setpx | setwin | rstfw | beginpx | pxw | beginrd | rdpx | endrd | cmd | dat2 | datf | wrb | rdb => exact ⟨rfl, rfl⟩

end

/-- Settles O35: each element of `stateAfter` is written by the requests its frame lemma names. -/
theorem requestsWriteOnlyTheirState : Obligations.RequestsWriteOnlyTheirState := by
  intro i s t h
  obtain ⟨-, rfl⟩ := exec_next.mp h
  obtain ⟨hcs, hrst⟩ := linesAfter_cs_rst (p := Config.params) (i := i) (ls := s.lines)
  refine ⟨dirAfter_eq_self, modeAfter_eq_self, winAfter_eq_self, dbusAfter_wr_eq_self, linesAfter_cd_eq_self,
    linesAfter_rd_drawn_eq_self, ?noWords, fun hrdpx hrdb => ?responses, hcs, hrst, rfl, by rw [newEvents_stateAfter]; rfl⟩
  case noWords =>
    rintro ⟨color, rfl⟩
    simp [stateAfter, dbusAfter, winAfter, linesAfter]
  case responses => simp only [stateAfter, responseOf_eq_nil hrdpx hrdb, List.append_nil]

/-! ## The number of events -/

section
variable {p : Params} (hp : p.tWrPulse = 0)
include hp

theorem length_strobeEvents : (strobeEvents p).length = 2 := by simp [strobeEvents, pulseEvents, hp]

theorem length_writeEvents (b : Byte) : (writeEvents p b).length = 3 := by simp [writeEvents, length_strobeEvents hp]

theorem length_commandEvents (b : Byte) : (commandEvents p b).length = 5 := by
  simp [commandEvents, length_writeEvents hp]

theorem length_pairEvents (hi lo : Byte) : (pairEvents p hi lo).length = 7 := by
  simp [pairEvents, length_writeEvents hp]

theorem length_fastEvents (b : Byte) : (fastEvents p b).length = 6 := by simp [fastEvents, length_strobeEvents hp]

theorem length_wordEvents (v : Word16) : (wordEvents p v).length = 7 := length_pairEvents hp _ _

/-- A window command with its start bound: 12 events (R162). -/
theorem length_startEvents (opcode : Byte) (v : Word16) : (startEvents p opcode v).length = 12 := by
  simp [startEvents, length_commandEvents hp, length_wordEvents hp]

/-- A window command with both bounds: 19 events (R162). -/
theorem length_rangeEvents (opcode : Byte) (v1 v2 : Word16) : (rangeEvents p opcode v1 v2).length = 19 := by
  simp [rangeEvents, length_commandEvents hp, length_wordEvents hp]

theorem length_lrResetEvents : (lrResetEvents p).length = 38 := by simp [lrResetEvents, length_rangeEvents hp]

end

/-- The two chip-select events frame the body (R108). -/
theorem length_requestEvents (p : Params) (s : State) (i : Instr) :
    (requestEvents p s i).length = (bodyEvents p s i).length + 2 := by simp [requestEvents]

/-- Settles O38: the body of a request is a row of micro-operations, each of a fixed length without a pulse delay. -/
theorem eventsPerRequest : Obligations.EventsPerRequest := by
  intro p i s t hp h
  obtain ⟨-, rfl⟩ := request_next.mp h
  rw [newEvents_stateAfter, length_requestEvents]
  cases i with
  | setpx x y =>
    by_cases hw : s.win = .defaultLR <;> simp [bodyEvents, hw, length_startEvents hp, length_lrResetEvents hp]
  | pxrun color n =>
    simp only [bodyEvents, List.length_flatten, List.map_replicate, length_wordEvents hp, List.sum_replicate, smul_eq_mul]
    omega
  | setwin | rstfw => simp [bodyEvents, length_rangeEvents hp, length_startEvents hp]
  | beginrd | rdpx | rdb => simp [bodyEvents, length_commandEvents hp, readEvents]
  | beginpx | pxw | cmd | dat2 | datf | wrb | endrd =>
    simp [bodyEvents, length_commandEvents hp, length_wordEvents hp, length_pairEvents hp, length_fastEvents hp,
      length_writeEvents hp]

end Sys2Proof.Machine
end

section
/-! SUPPORT. Quiescent states (10_state.md R29 (a), (b)): every request keeps them, and so does every step. -/

namespace Sys2Proof.Machine

open Sys2Proof.Safety

/-- Settles O39: the reset lines are the full idle pattern, and neither side of the agreement holds. -/
theorem resetIsQuiescent : Obligations.ResetIsQuiescent := ⟨rfl, by decide⟩

/-- A request that fits the Bus Direction turns it together with opening or closing the read stream, so the two still agree. -/
theorem dirAfter_read_iff {i : Instr} {m : Mode} (h : neededDir i = .read ↔ m = .pixelRead) :
    dirAfter i (neededDir i) = .read ↔ modeAfter m i = .pixelRead := by
  cases i with
  | setpx | setwin | rstfw | beginpx | beginrd | endrd | cmd => simp [dirAfter, neededDir, modeAfter]
  | pxw | pxrun | rdpx | dat2 | datf | wrb | rdb => exact h

/-- With CD low for a command, a request leaves a quiescent state quiescent. -/
theorem quiescent_stateAfter {p : Params} {i : Instr} {s : State} (hc : p.cdCmdLevel = .low) (hdir : s.dir = neededDir i)
    (hs : Quiescent s) : Quiescent (stateAfter p i s) := by
  obtain ⟨hlines, hagree⟩ := hs
  refine ⟨stateAfter_fullIdle p i s hc hlines, ?_⟩
  rw [hdir] at hagree
  have h := dirAfter_read_iff hagree
  rwa [← hdir] at h

/-- Settles O40: an idle step keeps the state, a reset leaves the reset values, and a request keeps the invariant. -/
theorem stepKeepsQuiescent : Obligations.StepKeepsQuiescent := by
  intro s t hs h
  obtain rfl | ⟨rest, rfl⟩ | ⟨i, rest, hdir, rfl⟩ := step_next h
  · exact hs
  · exact resetIsQuiescent
  · exact quiescent_stateAfter rfl hdir hs

end Sys2Proof.Machine
end

section
/-! SUPPORT. The body of a request as a row of pieces, each a shared operation that leaves both strobes inactive. What holds of
each piece and passes to rows holds of every request, PXRUN of any count included. -/

namespace Sys2Proof.Machine

open Sys2Proof.Safety

/-- A shared operation inside a burst. -/
inductive Piece where
  /-- `enterData` (R106). -/
  | select
  /-- `sendCommand` (R130). -/
  | command (opcode : Byte)
  /-- `writeByte` (R120). -/
  | write (b : Byte)
  /-- One drive and two strobes (R132). -/
  | twice (b : Byte)
  /-- `readByte` with the environment's byte (R121). -/
  | read (v : Byte)
  /-- A direction change (R142, R145). -/
  | turn (d : Dir)
  /-- The settle delay outside a strobe (R142). -/
  | settle

/-- The events of a piece. -/
def Piece.events (p : Params) : Piece → List Event
  | .select => [.line .cd p.dataLevel]
  | .command opcode => commandEvents p opcode
  | .write b => writeEvents p b
  | .twice b => .drive b :: (strobeEvents p ++ strobeEvents p)
  | .read v => readEvents p v
  | .turn d => [.dir d]
  | .settle => [.delay p.tRdSettle]

/-- A 16-bit value, high byte first (R133). -/
def Piece.word (v : Word16) : List Piece := [.select, .write (hiByte v), .write (loByte v)]

/-- A window command with its start bound (R161). -/
def Piece.start (opcode : Byte) (v : Word16) : List Piece := .command opcode :: Piece.word v

/-- A window command with both bounds (R161). -/
def Piece.range (opcode : Byte) (v1 v2 : Word16) : List Piece := .command opcode :: (Piece.word v1 ++ Piece.word v2)

/-- The pieces of a request. -/
def bodyPieces (p : Params) (s : State) : Instr → List Piece
  | .setpx x y =>
    (if s.win = .defaultLR then [] else Piece.range p.opCaset 0 p.xmax ++ Piece.range p.opPaset 0 p.ymax)
      ++ Piece.start p.opCaset x ++ Piece.start p.opPaset y
  | .setwin x1 y1 x2 _ => Piece.range p.opCaset x1 x2 ++ Piece.start p.opPaset y1
  | .rstfw => Piece.range p.opCaset 0 p.xmax ++ Piece.start p.opPaset 0
  | .beginpx => [.command p.opRamwr]
  | .pxw color => Piece.word color
  | .pxrun color n => (List.replicate n.toNat (Piece.word color)).flatten
  | .beginrd => [.command p.opRamrd, .turn .read, .select, .settle, .read (draw s).1]
  | .rdpx => [.select, .read (draw s).1, .read (draw (draw s).2).1]
  | .endrd => [.turn .write]
  | .cmd opcode => [.command opcode]
  | .dat2 hi lo => [.select, .write hi, .write lo]
  | .datf byte => [.select, .twice byte]
  | .wrb value => [.write value]
  | .rdb => [.read (draw s).1]

section
variable (p : Params)

theorem flatMap_word (v : Word16) : (Piece.word v).flatMap (Piece.events p) = wordEvents p v := by
  simp [Piece.word, Piece.events, wordEvents, pairEvents]

theorem flatMap_start (opcode : Byte) (v : Word16) :
    (Piece.start opcode v).flatMap (Piece.events p) = startEvents p opcode v := by
  simp [Piece.start, List.flatMap_cons, flatMap_word, Piece.events, startEvents]

theorem flatMap_range (opcode : Byte) (v1 v2 : Word16) :
    (Piece.range opcode v1 v2).flatMap (Piece.events p) = rangeEvents p opcode v1 v2 := by
  simp [Piece.range, List.flatMap_cons, List.flatMap_append, flatMap_word, Piece.events, rangeEvents]

/-- The body of a request is the row of its pieces' events. -/
theorem bodyEvents_eq_flatMap (s : State) (i : Instr) : bodyEvents p s i = (bodyPieces p s i).flatMap (Piece.events p) := by
  cases i with
  | setpx x y =>
    by_cases hw : s.win = .defaultLR <;>
      simp [bodyEvents, bodyPieces, hw, flatMap_start, flatMap_range, lrResetEvents]
  | pxrun color n =>
    simp only [bodyEvents, bodyPieces]
    induction n.toNat with
    | zero => rfl
    | succ n ih => rw [List.replicate_succ, List.replicate_succ, List.flatten_cons, List.flatten_cons, List.flatMap_append, ih,
        flatMap_word]
  | setwin | rstfw => simp [bodyEvents, bodyPieces, flatMap_start, flatMap_range]
  | pxw color => exact (flatMap_word p color).symm
  | beginpx | beginrd | rdpx | endrd | cmd | dat2 | datf | wrb | rdb =>
    simp [bodyEvents, bodyPieces, Piece.events, pairEvents, fastEvents]

end

end Sys2Proof.Machine
end

section
/-! SUPPORT. The monitor of the glitch-free contract (20_memory.md R63): which events it accepts in which phase, what every state it
reaches is like, that it accepts every request, and what an accepted trace is like at each of its points. -/

namespace Sys2Proof.Machine

open Sys2Proof.Safety

/-! ## The events the monitor accepts -/

/-- The monitor's transitions, one constructor for each form of event it accepts. -/
inductive Accepts (p : Params) : Monitor → Event → Monitor → Prop
  | cs (l : Lines) (d : Dir) (v : Level) : Accepts p ⟨l, d, .between⟩ (.line .cs v) ⟨l.set .cs v, d, .between⟩
  | cd (l : Lines) (d : Dir) (v : Level) : Accepts p ⟨l, d, .between⟩ (.line .cd v) ⟨l.set .cd v, d, .between⟩
  | wrLow (l : Lines) (d : Dir) (hcs : l.cs = .low) (hd : d = .write) :
    Accepts p ⟨l, d, .between⟩ (.line .wr .low) ⟨l.set .wr .low, d, .writing false⟩
  | rdLow (l : Lines) (d : Dir) (hcs : l.cs = .low) (hd : d = .read) :
    Accepts p ⟨l, d, .between⟩ (.line .rd .low) ⟨l.set .rd .low, d, .reading⟩
  | drive (l : Lines) (d : Dir) (b : Byte) (hd : d = .write) :
    Accepts p ⟨l, d, .between⟩ (.drive b) ⟨l, d, .between⟩
  | dir (l : Lines) (d d' : Dir) (hcs : l.cs = .low) (hne : d' ≠ d) :
    Accepts p ⟨l, d, .between⟩ (.dir d') ⟨l, d', .between⟩
  | settle (l : Lines) (d : Dir) (n : Nat) (hn : n = p.tRdSettle) :
    Accepts p ⟨l, d, .between⟩ (.delay n) ⟨l, d, .between⟩
  | pulse (l : Lines) (d : Dir) (n : Nat) (hn : n = p.tWrPulse) :
    Accepts p ⟨l, d, .writing false⟩ (.delay n) ⟨l, d, .writing true⟩
  | wrHigh (l : Lines) (d : Dir) (delayed : Bool) :
    Accepts p ⟨l, d, .writing delayed⟩ (.line .wr .high) ⟨l.set .wr .high, d, .between⟩
  | readSettle (l : Lines) (d : Dir) (n : Nat) (hn : n = p.tRdSettle) :
    Accepts p ⟨l, d, .reading⟩ (.delay n) ⟨l, d, .settled⟩
  | sample (l : Lines) (d : Dir) (v : Byte) : Accepts p ⟨l, d, .settled⟩ (.sample v) ⟨l, d, .sampled⟩
  | rdHigh (l : Lines) (d : Dir) : Accepts p ⟨l, d, .sampled⟩ (.line .rd .high) ⟨l.set .rd .high, d, .between⟩

section
variable {p : Params} {m m' : Monitor} {e : Event}

/-- What the monitor does with an event is one of those transitions. -/
theorem accepts_of_event (h : m.event p e = some m') : Accepts p m e m' := by
  obtain ⟨l, d, ph⟩ := m
  unfold Monitor.event at h
  -- Each arm of the monitor is one constructor, and the guard of the arm is its premise.
  split at h <;> subst_vars
  all_goals try split_ifs at h with hguard
  all_goals cases h
  all_goals constructor
  all_goals tauto

/-- The monitor tracks the lines as a scan does (R62), and the direction as the `Dir` events give it (R67). -/
theorem Accepts.accounts (h : Accepts p m e m') (b : Byte) :
    m'.lines = ((⟨m.lines, b⟩ : Scan).after e).lines ∧ m'.dir = dirAlong m.dir [e] := by
  cases h <;> exact ⟨rfl, rfl⟩

/-- What the phase says of the lines and the direction: RST is high, a strobe is low exactly inside it, and inside a strobe CS is
low and the direction is the strobe's. -/
def Sound (m : Monitor) : Prop :=
  m.lines.rst = .high ∧
    match m.phase with
    | .between => m.lines.wr = .high ∧ m.lines.rd = .high
    | .writing _ => m.lines.wr = .low ∧ m.lines.rd = .high ∧ m.lines.cs = .low ∧ m.dir = .write
    | .reading | .settled | .sampled => m.lines.wr = .high ∧ m.lines.rd = .low ∧ m.lines.cs = .low ∧ m.dir = .read

theorem Accepts.sound (h : Accepts p m e m') (hm : Sound m) : Sound m' := by
  cases h <;> simp_all [Sound]

end

/-! ## Points of an accepted trace -/

/-- The monitor's state before the event at a point of a trace. -/
def ReachedAt (p : Params) (tr : List Event) (k : Nat) (m : Monitor) : Prop :=
  Monitor.run p Monitor.start (tr.take k) = some m

section
variable {p : Params} {tr : List Event} {k : Nat} {m : Monitor} {e : Event}

/-- An accepted run accounts for the lines and the direction. -/
theorem run_accounts {es : List Event} {m' : Monitor} (b : Byte) (h : Monitor.run p m es = some m') :
    m'.lines = ((⟨m.lines, b⟩ : Scan).afterAll es).lines ∧ m'.dir = dirAlong m.dir es := by
  induction es generalizing m b with
  | nil => cases h; exact ⟨rfl, rfl⟩
  | cons e es ih =>
    rw [Monitor.run] at h
    split at h
    next m₁ hevent =>
      obtain ⟨hlines₁, hdir₁⟩ := (accepts_of_event hevent).accounts b
      obtain ⟨hlines, hdir⟩ := ih ((⟨m.lines, b⟩ : Scan).after e).dbus h
      rw [hlines₁] at hlines
      exact ⟨hlines, by rw [hdir, hdir₁, ← dirAlong_append, List.singleton_append]⟩
    next => cases h

theorem run_sound {es : List Event} {m' : Monitor} (h : Monitor.run p m es = some m') (hm : Sound m) : Sound m' := by
  induction es generalizing m with
  | nil => cases h; exact hm
  | cons e es ih =>
    rw [Monitor.run] at h
    split at h
    next m₁ hevent => exact ih h ((accepts_of_event hevent).sound hm)
    next => cases h

/-- Every point of an accepted trace is reached. -/
theorem exists_reachedAt {mEnd : Monitor} (h : Monitor.run p Monitor.start tr = some mEnd) (k : Nat) :
    ∃ m, ReachedAt p tr k m := by
  rw [← List.take_append_drop k tr, Monitor.run_append, Option.bind_eq_some_iff] at h
  obtain ⟨m, hm, -⟩ := h
  exact ⟨m, hm⟩

/-- From a point of an accepted trace its event leads to the next point. -/
theorem accepts_next {mEnd : Monitor} (h : Monitor.run p Monitor.start tr = some mEnd) (hm : ReachedAt p tr k m)
    (he : tr[k]? = some e) : ∃ m', Accepts p m e m' ∧ ReachedAt p tr (k + 1) m' := by
  obtain ⟨m', hm'⟩ := exists_reachedAt h (k + 1)
  have hrun : Monitor.run p m [e] = some m' := by
    rw [ReachedAt, List.take_add_one, he, Option.toList_some, Monitor.run_append, hm] at hm'
    exact hm'
  rw [Monitor.run] at hrun
  split at hrun
  next m₁ hevent =>
    cases hrun
    exact ⟨m', accepts_of_event hevent, hm'⟩
  next => cases hrun

/-- A point of an accepted trace that is not the last one has an event. -/
theorem getElem?_of_lt {j : Nat} (hj : tr[j]? = some e) (hk : k < j) : ∃ e', tr[k]? = some e' := by
  obtain ⟨hlt, -⟩ := List.getElem?_eq_some_iff.mp hj
  exact ⟨tr[k], List.getElem?_eq_getElem (hk.trans hlt)⟩

end

/-! ## Strobes of an accepted trace

From a point inside a strobe the strobe's end comes after what is left of the strobe, and nothing else stands before it. -/

section
variable {p : Params} {tr : List Event} {mEnd m : Monitor} (h : Monitor.run p Monitor.start tr = some mEnd)
variable {k j : Nat} (hm : ReachedAt p tr k m) (hk : k ≤ j)
include h hm hk

/-- The event at a point before the strobe's end, with the state it leads to. -/
theorem accepts_of_lt {e : Event} (hj : tr[j]? = some e) (hne : k ≠ j) (hfirst : ∀ x, k ≤ x → x < j → tr[x]? ≠ some e) :
    ∃ e' m', tr[k]? = some e' ∧ e' ≠ e ∧ Accepts p m e' m' ∧ ReachedAt p tr (k + 1) m' := by
  have hlt : k < j := lt_of_le_of_ne hk hne
  obtain ⟨e', he'⟩ := getElem?_of_lt hj hlt
  obtain ⟨m', hstep, hm'⟩ := accepts_next h hm he'
  exact ⟨e', m', he', fun heq => hfirst k le_rfl hlt (heq ▸ he'), hstep, hm'⟩

theorem writing_true_end (hphase : m.phase = .writing true) (hj : tr[j]? = some (.line .wr .high))
    (hfirst : ∀ x, k ≤ x → x < j → tr[x]? ≠ some (.line .wr .high)) : k = j := by
  by_contra hne
  obtain ⟨e', m', -, hne', hstep, -⟩ := accepts_of_lt h hm hk hj hne hfirst
  cases hstep with
  | wrHigh => exact hne' rfl
  | _ => cases hphase

theorem writing_false_end (hphase : m.phase = .writing false) (hj : tr[j]? = some (.line .wr .high))
    (hfirst : ∀ x, k ≤ x → x < j → tr[x]? ≠ some (.line .wr .high)) :
    j = k ∨ (j = k + 1 ∧ ∃ n, tr[k]? = some (.delay n)) := by
  by_cases hne : k = j
  · exact .inl hne.symm
  obtain ⟨e', m', he', hne', hstep, hm'⟩ := accepts_of_lt h hm hk hj hne hfirst
  cases hstep with
  | pulse l d n hn =>
    have hend := writing_true_end h hm' (by omega) rfl hj fun x hx => hfirst x (by omega)
    exact .inr ⟨hend.symm, n, he'⟩
  | wrHigh => exact absurd rfl hne'
  | _ => cases hphase

theorem sampled_end (hphase : m.phase = .sampled) (hj : tr[j]? = some (.line .rd .high))
    (hfirst : ∀ x, k ≤ x → x < j → tr[x]? ≠ some (.line .rd .high)) : k = j := by
  by_contra hne
  obtain ⟨e', m', -, hne', hstep, -⟩ := accepts_of_lt h hm hk hj hne hfirst
  cases hstep with
  | rdHigh => exact hne' rfl
  | _ => cases hphase

theorem settled_end (hphase : m.phase = .settled) (hj : tr[j]? = some (.line .rd .high))
    (hfirst : ∀ x, k ≤ x → x < j → tr[x]? ≠ some (.line .rd .high)) :
    j = k + 1 ∧ ∃ v, tr[k]? = some (.sample v) := by
  have hne : k ≠ j := by
    rintro rfl
    obtain ⟨m', hstep, -⟩ := accepts_next h hm hj
    cases hstep
    cases hphase
  obtain ⟨e', m', he', -, hstep, hm'⟩ := accepts_of_lt h hm hk hj hne hfirst
  cases hstep with
  | sample l d v =>
    have hend := sampled_end h hm' (by omega) rfl hj fun x hx => hfirst x (by omega)
    exact ⟨hend.symm, v, he'⟩
  | _ => cases hphase

theorem reading_end (hphase : m.phase = .reading) (hj : tr[j]? = some (.line .rd .high))
    (hfirst : ∀ x, k ≤ x → x < j → tr[x]? ≠ some (.line .rd .high)) :
    j = k + 2 ∧ tr[k]? = some (.delay p.tRdSettle) ∧ ∃ v, tr[k + 1]? = some (.sample v) := by
  have hne : k ≠ j := by
    rintro rfl
    obtain ⟨m', hstep, -⟩ := accepts_next h hm hj
    cases hstep
    cases hphase
  obtain ⟨e', m', he', -, hstep, hm'⟩ := accepts_of_lt h hm hk hj hne hfirst
  cases hstep with
  | readSettle l d n hn =>
    obtain ⟨hend, hsample⟩ := settled_end h hm' (by omega) rfl hj fun x hx => hfirst x (by omega)
    exact ⟨hend, by rw [he', hn], hsample⟩
  | _ => cases hphase

end

/-- The settle delay stands directly before a point in the phase it leads to. -/
theorem settle_before_settled {p : Params} {tr : List Event} {mEnd m : Monitor} {k : Nat}
    (h : Monitor.run p Monitor.start tr = some mEnd) (hm : ReachedAt p tr k m) (hphase : m.phase = .settled)
    (hk : k ≤ tr.length) : 0 < k ∧ tr[k - 1]? = some (.delay p.tRdSettle) := by
  cases k with
  | zero =>
    cases hm
    cases hphase
  | succ k =>
    obtain ⟨m₀, hm₀⟩ := exists_reachedAt h k
    obtain ⟨m', hstep, hm'⟩ := accepts_next h hm₀ (List.getElem?_eq_getElem hk)
    obtain rfl : m = m' := Option.some.inj (hm.symm.trans hm')
    refine ⟨k.succ_pos, ?_⟩
    rw [Nat.add_sub_cancel, List.getElem?_eq_getElem hk]
    generalize tr[k] = e at hstep
    cases hstep with
    | readSettle l d n hn => rw [hn]
    | _ => cases hphase

/-- Settles O43: the monitor's state at a point is sound and holds the lines and the direction there; its event is accepted there;
and a strobe that begins there ends as the phases allow. -/
theorem acceptedTracesAreGlitchFree : Obligations.AcceptedTracesAreGlitchFree := by
  intro p tr mEnd b k h l dir
  obtain ⟨m, hm⟩ := exists_reachedAt h k
  obtain ⟨hlines, hdir⟩ := run_accounts b hm
  have hstep {e : Event} (he : tr[k]? = some e) := accepts_next h hm he
  replace hlines : l = m.lines := hlines.symm
  replace hdir : dir = m.dir := hdir.symm
  obtain ⟨hrst, hphase⟩ : Sound m := run_sound hm ⟨rfl, rfl, rfl⟩
  rw [hlines, hdir]
  refine ⟨?strobes, hrst, fun j hj hlow hend hfirst => ?write, fun j hj hlow hend hfirst => ?read, fun v he => ?select,
    fun b he => ?drive, fun d he => ?turn, fun he => ?writeStrobe, fun he => ?readStrobe, fun v he => ?sample⟩
  case strobes =>
    split at hphase
    next => exact .inl hphase.1
    next => exact .inr hphase.2.1
    all_goals exact .inl hphase.1
  case write =>
    obtain ⟨m', hlow, hm'⟩ := hstep hlow
    cases hlow
    exact writing_false_end h hm' hj rfl hend fun x hx => hfirst x hx
  case read =>
    obtain ⟨m', hlow, hm'⟩ := hstep hlow
    cases hlow
    exact reading_end h hm' hj rfl hend fun x hx => hfirst x hx
  case select =>
    obtain he | he := he <;> obtain ⟨m', hv, -⟩ := hstep he <;> cases hv <;> exact hphase
  case drive =>
    obtain ⟨m', hb, -⟩ := hstep he
    cases hb with
    | drive l d b hd => exact ⟨hphase.1, hphase.2, hd⟩
  case turn =>
    obtain ⟨m', hd, -⟩ := hstep he
    cases hd with
    | dir l d d' hcs hne => exact ⟨hphase.1, hphase.2, hcs⟩
  case writeStrobe =>
    obtain ⟨m', hlow, -⟩ := hstep he
    cases hlow with
    | wrLow l d hcs hd => exact ⟨hcs, hd⟩
  case readStrobe =>
    obtain ⟨m', hlow, -⟩ := hstep he
    cases hlow with
    | rdLow l d hcs hd => exact ⟨hcs, hd⟩
  case sample =>
    obtain ⟨m', hv, -⟩ := hstep he
    cases hv with
    | sample l d v =>
      obtain ⟨-, hrd, hcs, hd⟩ := hphase
      have hk := (List.getElem?_eq_some_iff.mp he).1
      exact ⟨hcs, hrd, hd, settle_before_settled h hm rfl hk.le⟩

/-! ## Every request is accepted -/

/-- The direction a piece needs. -/
def Piece.fits (d : Dir) : Piece → Bool
  | .select | .settle => true
  | .command _ | .write _ | .twice _ => d = .write
  | .read _ => d = .read
  | .turn d' => d' ≠ d

/-- The direction after a piece. -/
def Piece.dirAfter (d : Dir) : Piece → Dir
  | .turn d' => d'
  | .select | .settle | .command _ | .write _ | .twice _ | .read _ => d

/-- Each piece of a row fits the direction it finds. -/
def rowFits : Dir → List Piece → Bool
  | _, [] => true
  | d, a :: as => a.fits d && rowFits (a.dirAfter d) as

/-- `n` pixel words fit the direction Write. -/
theorem rowFits_replicate_word (v : Word16) (n : Nat) : rowFits .write (List.replicate n (Piece.word v)).flatten = true := by
  induction n with
  | zero => rfl
  | succ n ih => simpa [List.replicate_succ, Piece.word, rowFits, Piece.fits, Piece.dirAfter] using ih

/-- The pieces of a request fit when the request does (R182). -/
theorem rowFits_bodyPieces (p : Params) (s : State) (i : Instr) : rowFits (neededDir i) (bodyPieces p s i) = true := by
  cases i with
  | setpx x y => by_cases hw : s.win = .defaultLR <;> simp [bodyPieces, hw] <;> rfl
  | pxrun color n => exact rowFits_replicate_word color n.toNat
  | _ => rfl

section
variable {p : Params} {m : Monitor} (hp : m.phase = .between) (hcs : m.lines.cs = .low)
include hp hcs

/-- The monitor accepts a piece that fits, and is between strobes and inside the burst again after it. -/
theorem monitor_piece {a : Piece} (ha : a.fits m.dir = true) : ∃ m', Monitor.run p m (a.events p) = some m' ∧
    m'.phase = .between ∧ m'.lines.cs = .low ∧ m'.dir = a.dirAfter m.dir := by
  cases a with
  | select =>
    obtain ⟨l, d, ph⟩ := m
    cases hp
    exact ⟨_, rfl, rfl, hcs, rfl⟩
  | command opcode =>
    have hrun := monitor_commandEvents p m [] hp hcs opcode (by simpa [Piece.fits] using ha)
    rw [List.append_nil] at hrun
    exact ⟨_, hrun, hp, hcs, rfl⟩
  | write b =>
    have hrun := monitor_writeEvents p m [] hp hcs b (by simpa [Piece.fits] using ha)
    rw [List.append_nil] at hrun
    exact ⟨_, hrun, hp, hcs, rfl⟩
  | twice b =>
    have hd : m.dir = .write := by simpa [Piece.fits] using ha
    have hfirst := monitor_writeEvents p m (strobeEvents p) hp hcs b hd
    have hsecond := monitor_strobeEvents p { m with lines := { m.lines with wr := .high } } [] hp hcs hd
    rw [List.append_nil] at hsecond
    exact ⟨_, hfirst.trans hsecond, hp, hcs, rfl⟩
  | read v =>
    have hrun := monitor_readEvents p m [] hp hcs v (by simpa [Piece.fits] using ha)
    rw [List.append_nil] at hrun
    exact ⟨_, hrun, hp, hcs, rfl⟩
  | turn d' =>
    obtain ⟨l, d, ph⟩ := m
    cases hp
    have hne : d' ≠ d := by simpa [Piece.fits] using ha
    have hlow : l.cs = .low := hcs
    exact ⟨⟨l, d', .between⟩, by simp [Piece.events, Monitor.run, Monitor.event, hlow, hne], rfl, hcs, rfl⟩
  | settle =>
    obtain ⟨l, d, ph⟩ := m
    cases hp
    exact ⟨⟨l, d, .between⟩, by simp [Piece.events, Monitor.run, Monitor.event], rfl, hcs, rfl⟩

/-- The monitor accepts a row of pieces that fit one after another. -/
theorem monitor_row {as : List Piece} (has : rowFits m.dir as = true) :
    ∃ m', Monitor.run p m (as.flatMap (Piece.events p)) = some m' ∧ m'.phase = .between := by
  induction as generalizing m with
  | nil => exact ⟨m, rfl, hp⟩
  | cons a as ih =>
    rw [rowFits, Bool.and_eq_true] at has
    obtain ⟨m₁, hrun₁, hp₁, hcs₁, hd₁⟩ := monitor_piece hp hcs (p := p) has.1
    obtain ⟨m', hrun, hp'⟩ := ih hp₁ hcs₁ (hd₁ ▸ has.2)
    exact ⟨m', by rw [List.flatMap_cons, Monitor.run_append, hrun₁, Option.bind_some, hrun], hp'⟩

end

/-- The monitor accepts the events of a request that fits the Bus Direction, and is then between strobes. -/
theorem monitor_requestEvents (p : Params) {i : Instr} {s : State} (hdir : s.dir = neededDir i) :
    Monitor.run p (Monitor.ofState s) (requestEvents p s i) = some (Monitor.ofState (stateAfter p i s)) := by
  obtain ⟨m, hbody, hphase⟩ := monitor_row (p := p) (m := ⟨s.lines.set .cs .low, s.dir, .between⟩) rfl rfl
    (as := bodyPieces p s i) (by rw [hdir]; exact rowFits_bodyPieces p s i)
  have hrun : Monitor.run p (Monitor.ofState s) (requestEvents p s i) = some ⟨m.lines.set .cs .high, m.dir, .between⟩ := by
    rw [← bodyEvents_eq_flatMap] at hbody
    obtain ⟨l, d, ph⟩ := m
    cases hphase
    change Monitor.run p ⟨s.lines.set .cs .low, s.dir, .between⟩ (bodyEvents p s i ++ [.line .cs .high]) = _
    rw [Monitor.run_append, hbody]
    rfl
  obtain ⟨hlines, hd⟩ := run_accounts s.dbus hrun
  rw [hrun]
  simp only at hlines hd
  rw [hlines, hd]
  simp only [Monitor.ofState, afterAll_requestEvents, dirAlong_requestEvents]
  rfl

/-- A request that fits the Bus Direction keeps the trace glitch-free. -/
theorem glitchFree_stateAfter {p : Params} {i : Instr} {s : State} (hdir : s.dir = neededDir i) (hs : GlitchFree p s) :
    GlitchFree p (stateAfter p i s) := by
  change Monitor.run p Monitor.start (s.trace ++ requestEvents p s i) = _
  rw [Monitor.run_append, hs, Option.bind_some, monitor_requestEvents p hdir]

/-- Settles O41: the monitor starts where the reset state is. -/
theorem resetIsGlitchFree : Obligations.ResetIsGlitchFree := rfl

/-- Settles O42: an idle step keeps the trace, a reset begins an empty one, and a request extends it by events the monitor
accepts. -/
theorem stepKeepsTraceGlitchFree : Obligations.StepKeepsTraceGlitchFree := by
  refine ⟨fun s t hs h => ?_, fun p i s t hs h => ?_⟩
  · obtain rfl | ⟨rest, rfl⟩ | ⟨i, rest, hdir, rfl⟩ := step_next h
    · exact hs
    · exact resetIsGlitchFree
    · exact glitchFree_stateAfter hdir hs
  · obtain ⟨hdir, rfl⟩ := request_next.mp h
    exact glitchFree_stateAfter hdir hs

end Sys2Proof.Machine
end

section
/-! SUPPORT. What the bytes of a request program (43_window.md R161, R170), and from that the obligations on the belief. -/

namespace Sys2Proof.Machine

open Sys2Proof.Safety
open Sys2Proof.Machine.Spelling

/-! ## The bytes of the window requests, in the spelling of R161 -/

section
variable (p : Params) (s : State)

theorem requestBytes_setpx (x y : Word16) : requestBytes p s (.setpx x y) =
    (if s.win = .defaultLR then [] else rangeBytes p.opCaset 0 p.xmax ++ rangeBytes p.opPaset 0 p.ymax)
      ++ startBytes p.opCaset x ++ startBytes p.opPaset y := by
  by_cases hw : s.win = .defaultLR <;> simp [requestBytes, hw, rangeBytes, startBytes, wordBytes]

theorem requestBytes_setwin (x1 y1 x2 y2 : Word16) :
    requestBytes p s (.setwin x1 y1 x2 y2) = rangeBytes p.opCaset x1 x2 ++ startBytes p.opPaset y1 := rfl

theorem requestBytes_rstfw :
    requestBytes p s .rstfw = rangeBytes p.opCaset 0 p.xmax ++ startBytes p.opPaset 0 := rfl

end

/-! ## What the window commands program -/

section
variable {p : Params} (o : Programmed)

theorem txns_startBytes_caset (v : Word16) : o.txns p (startBytes p.opCaset v) =
    { o with cmd := some p.opCaset, params := [hiByte v, loByte v], startCol := some v } := by
  simp [startBytes, wordBytes, Programmed.txn, Programmed.bound]

theorem txns_rangeBytes_caset (v1 v2 : Word16) : o.txns p (rangeBytes p.opCaset v1 v2) =
    { o with
      cmd := some p.opCaset
      params := [hiByte v1, loByte v1, hiByte v2, loByte v2]
      startCol := some v1
      endCol := some v2 } := by
  simp [rangeBytes, wordBytes, Programmed.txn, Programmed.bound]

variable (hne : p.opCaset ≠ p.opPaset)
include hne

theorem txns_startBytes_paset (v : Word16) : o.txns p (startBytes p.opPaset v) =
    { o with cmd := some p.opPaset, params := [hiByte v, loByte v], startRow := some v } := by
  simp [startBytes, wordBytes, Programmed.txn, Programmed.bound, hne.symm]

theorem txns_rangeBytes_paset (v1 v2 : Word16) : o.txns p (rangeBytes p.opPaset v1 v2) =
    { o with
      cmd := some p.opPaset
      params := [hiByte v1, loByte v1, hiByte v2, loByte v2]
      startRow := some v1
      endRow := some v2 } := by
  simp [rangeBytes, wordBytes, Programmed.txn, Programmed.bound, hne.symm]

end

/-! ## What the requests program -/

section
variable {p : Params} {s : State} (o : Programmed) (hne : p.opCaset ≠ p.opPaset)
include hne

/-- SETPX programs the start bounds, and both end bounds unless the belief is DefaultLR (R164). -/
theorem txns_setpx (x y : Word16) : (o.txns p (requestBytes p s (.setpx x y))).startCol = some x ∧
    (o.txns p (requestBytes p s (.setpx x y))).startRow = some y ∧
    (o.txns p (requestBytes p s (.setpx x y))).endCol = (if s.win = .defaultLR then o.endCol else some p.xmax) ∧
    (o.txns p (requestBytes p s (.setpx x y))).endRow = (if s.win = .defaultLR then o.endRow else some p.ymax) := by
  by_cases hw : s.win = .defaultLR <;>
    simp [requestBytes_setpx, hw, txns_append, txns_startBytes_caset, txns_rangeBytes_caset, txns_startBytes_paset _ hne,
      txns_rangeBytes_paset _ hne]

/-- SETWIN programs its end column and not the end row (R166). -/
theorem txns_setwin (x1 y1 x2 y2 : Word16) : (o.txns p (requestBytes p s (.setwin x1 y1 x2 y2))).endCol = some x2 ∧
    (o.txns p (requestBytes p s (.setwin x1 y1 x2 y2))).endRow = o.endRow := by
  simp [requestBytes_setwin, txns_append, txns_rangeBytes_caset, txns_startBytes_paset _ hne]

/-- RSTFW programs the end column XMAX and not the end row (R168). -/
theorem txns_rstfw : (o.txns p (requestBytes p s .rstfw)).endCol = some p.xmax ∧
    (o.txns p (requestBytes p s .rstfw)).endRow = o.endRow := by
  simp [requestBytes_rstfw, txns_append, txns_rangeBytes_caset, txns_startBytes_paset _ hne]

end

/-- The requests that send the window commands (R161). -/
def isWindowRequest : Instr → Bool
  | .setpx _ _ | .setwin _ _ _ _ | .rstfw => true
  | _ => false

section
variable {p : Params} {s : State} (o : Programmed) {i : Instr}

/-- Outside the window requests and the data writes no end bound is programmed: a command byte alone and a byte read program
nothing. -/
theorem txns_other (hwindow : isWindowRequest i = false) (hdata : isDataWrite i = false) :
    (o.txns p (requestBytes p s i)).endCol = o.endCol ∧ (o.txns p (requestBytes p s i)).endRow = o.endRow := by
  cases i with
  | beginpx | beginrd | rdpx | endrd | cmd | rdb => exact ⟨rfl, rfl⟩
  | setpx | setwin | rstfw => cases hwindow
  | pxw | pxrun | dat2 | datf | wrb => cases hdata

/-- Data fits the direction Write, so from a quiescent state it is written outside a stream or in a pixel-write stream. -/
theorem mode_of_dataWrite (hdata : isDataWrite i = true) (hs : Quiescent s) (hdir : s.dir = neededDir i)
    (hidle : s.mode ≠ .idle) : s.mode = .pixelWrite := by
  have hwrite : neededDir i = .write := by
    cases i with
    | pxw | pxrun | dat2 | datf | wrb => rfl
    | setpx | setwin | rstfw | beginpx | beginrd | rdpx | endrd | cmd | rdb => cases hdata
  have hread : s.mode ≠ .pixelRead := fun hmode => absurd (hs.2.mpr hmode) (by simp [hdir, hwrite])
  cases hmode : s.mode with
  | idle => exact absurd hmode hidle
  | pixelRead => exact absurd hmode hread
  | pixelWrite => rfl

/-- Data written outside a stream loses the belief, unless it is a PXRUN of no words, which sends nothing (R137, R141). -/
theorem winAfter_dataWrite_idle (hdata : isDataWrite i = true) (hidle : s.mode = .idle) :
    winAfter s i = .unknown ∨ (winAfter s i = s.win ∧ requestBytes p s i = []) := by
  cases i with
  | pxw | dat2 | datf | wrb => exact .inl (by simp [winAfter, hidle])
  | pxrun color n =>
    by_cases hn : n.toNat = 0
    · exact .inr (by simp [winAfter, requestBytes, hn])
    · exact .inl (by simp [winAfter, hidle, hn])
  | setpx | setwin | rstfw | beginpx | beginrd | rdpx | endrd | cmd | rdb => cases hdata

/-- Data written in a stream keeps the belief (R137). -/
theorem winAfter_dataWrite_stream (hdata : isDataWrite i = true) (hidle : s.mode ≠ .idle) : winAfter s i = s.win := by
  cases i with
  | pxw | pxrun | dat2 | datf | wrb => simp [winAfter, hidle]
  | setpx | setwin | rstfw | beginpx | beginrd | rdpx | endrd | cmd | rdb => cases hdata

end

/-! ## What the belief claims after a request -/

section
variable {p : Params} {row0 : Word16} {o o' : Programmed}

/-- What a belief claims is about the end bounds alone. -/
theorem claims_congr {w : Win} (hcol : o'.endCol = o.endCol) (hrow : o'.endRow = o.endRow)
    (h : EndColClaim p w o ∧ EndRowClaim p row0 w o) : EndColClaim p w o' ∧ EndRowClaim p row0 w o' := by
  cases w with
  | unknown => exact ⟨trivial, trivial⟩
  | defaultLR | customLR => simpa [EndColClaim, EndRowClaim, RowAtDefault, Programmed.endRowFrom, hcol, hrow] using h

variable {s : State} {i : Instr} (hclaims : EndColClaim p s.win o ∧ EndRowClaim p row0 s.win o)
  (hcmd : s.mode = .pixelWrite → o.cmd = some p.opRamwr)

include hcmd in
/-- In PixelWrite the command last sent is the pixel-write-start command: BEGINPX sends it, and only requests that send no
command leave the stream open (R27). -/
theorem cmd_of_modeAfter (hmode : modeAfter s.mode i = .pixelWrite) :
    (o.txns p (requestBytes p s i)).cmd = some p.opRamwr := by
  cases i with
  | beginpx => rfl
  | setpx | setwin | rstfw | cmd | beginrd | endrd => cases hmode
  | rdpx | rdb => exact hcmd hmode
  | pxw | pxrun | dat2 | datf | wrb => exact (txns_data_cmd p o _ (requestBytes_data p _ s rfl)).trans (hcmd hmode)

include hclaims hcmd in
/-- The belief a request leaves claims what the request has programmed, or what it has left as it was; RSTFW needs the end row
to be at its default (R170 (c)). -/
theorem claims_winAfter (hne : p.opCaset ≠ p.opPaset) (hcol : p.opCaset ≠ p.opRamwr) (hrow : p.opPaset ≠ p.opRamwr)
    (hs : Quiescent s) (hdir : s.dir = neededDir i) (hrstfw : i = .rstfw → RowAtDefault p row0 o) :
    EndColClaim p (winAfter s i) (o.txns p (requestBytes p s i)) ∧
      EndRowClaim p row0 (winAfter s i) (o.txns p (requestBytes p s i)) := by
  by_cases hdata : isDataWrite i = true
  case pos =>
    have hbytes := requestBytes_data p i s hdata
    by_cases hidle : s.mode = .idle
    · obtain hwin | ⟨hwin, hnone⟩ := winAfter_dataWrite_idle (p := p) hdata hidle
      · rw [hwin]
        exact ⟨trivial, trivial⟩
      · rw [hwin, hnone]
        exact hclaims
    · have hstream := hcmd (mode_of_dataWrite hdata hs hdir hidle)
      rw [winAfter_dataWrite_stream hdata hidle]
      refine claims_congr (txns_data_endCol p o _ hbytes ?_) (txns_data_endRow p o _ hbytes ?_) hclaims
      · simpa [hstream] using hcol.symm
      · simpa [hstream] using hrow.symm
  case neg =>
    cases i with
    | setpx x y =>
      obtain ⟨-, -, hendCol, hendRow⟩ := txns_setpx (s := s) o hne x y
      simp only [winAfter, EndColClaim, EndRowClaim, RowAtDefault, Programmed.endRowFrom, hendCol, hendRow]
      split
      next hw => simpa [hw, EndColClaim, EndRowClaim, RowAtDefault, Programmed.endRowFrom] using hclaims
      next => exact ⟨rfl, rfl⟩
    | setwin x1 y1 x2 y2 => exact ⟨(txns_setwin o hne x1 y1 x2 y2).1, trivial⟩
    | rstfw =>
      obtain ⟨hendCol, hendRow⟩ := txns_rstfw (s := s) o hne
      refine ⟨hendCol, ?_⟩
      simpa [winAfter, EndRowClaim, RowAtDefault, Programmed.endRowFrom, hendRow] using hrstfw rfl
    | cmd => exact ⟨trivial, trivial⟩
    | beginpx | beginrd | rdpx | endrd | rdb =>
      obtain ⟨hendCol, hendRow⟩ := txns_other (s := s) o rfl (Bool.eq_false_iff.mpr hdata)
      exact claims_congr hendCol hendRow hclaims
    | pxw | pxrun | dat2 | datf | wrb => exact absurd rfl hdata

end

/-! ## The obligations -/

/-- Settles O57: with nothing sent, a belief that claims nothing is true. -/
theorem resetBeliefIsTrue : Obligations.ResetBeliefIsTrue := fun _ _ _ => ⟨rfl, trivial, trivial, fun h => by cases h⟩

/-- Settles O58: a request extends what has been programmed by its own bytes, and the belief it leaves claims no more than
that. -/
theorem requestKeepsBeliefTrue : Obligations.RequestKeepsBeliefTrue := by
  intro p row0 i s t hc hne hcol hrow hs hb hrstfw h
  obtain ⟨hdir, rfl⟩ := request_next.mp h
  refine ⟨quiescent_stateAfter hc hdir hs, fun d => ?_⟩
  obtain ⟨hscan, hendCol, hendRow, hcmd⟩ := hb d
  rw [programmed_stateAfter p i s d hc hs.1 hscan]
  obtain ⟨hendCol', hendRow'⟩ :=
    claims_winAfter ⟨hendCol, hendRow⟩ hcmd hne hcol hrow hs hdir fun hi => hrstfw hi d
  exact ⟨scan_trace_stateAfter p i s d hscan, hendCol', hendRow', cmd_of_modeAfter hcmd⟩

/-- Settles O59: outside DefaultLR the bytes of SETPX hold both ranges and both starts. -/
theorem lowerRightResetProgramsBothBounds : Obligations.LowerRightResetProgramsBothBounds := by
  intro p row0 x y s t d hc hne hs hb hw h
  obtain ⟨-, rfl⟩ := request_next.mp h
  rw [programmed_stateAfter p _ s d hc hs (hb d).1]
  obtain ⟨hstartCol, hstartRow, hendCol, hendRow⟩ := txns_setpx (s := s) (programmed p d s) hne x y
  rw [if_neg hw] at hendCol hendRow
  exact ⟨hendCol, hendRow, hstartCol, hstartRow⟩

/-- Settles O60: the window requests named send no end row; of the others the data writes alone could complete one, and in a
pixel-write stream the command is not the row command. -/
theorem onlyResetOrRawDataProgramsEndRow : Obligations.OnlyResetOrRawDataProgramsEndRow := by
  intro p row0 i s t d hc hne hs hb h
  obtain ⟨hdir, rfl⟩ := request_next.mp h
  obtain ⟨hscan, -, -, hcmd⟩ := hb d
  rw [programmed_stateAfter p i s d hc hs hscan]
  constructor
  case left =>
    rintro (⟨x1, y1, x2, y2, rfl⟩ | rfl | ⟨hw, x, y, rfl⟩)
    · exact (txns_setwin _ hne x1 y1 x2 y2).2
    · exact (txns_rstfw _ hne).2
    · obtain ⟨-, -, -, hendRow⟩ := txns_setpx (s := s) (programmed p d s) hne x y
      rw [hendRow, if_pos hw]
  case right =>
    intro hrow hq hsetpx hraw
    by_cases hdata : isDataWrite i = true
    · have hstream := hcmd (mode_of_dataWrite hdata hq hdir fun hidle => hraw ⟨hidle, hdata⟩)
      refine txns_data_endRow p _ _ (requestBytes_data p i s hdata) ?_
      simpa [hstream] using hrow.symm
    cases i with
    | setpx x y =>
      obtain ⟨-, -, -, hendRow⟩ := txns_setpx (s := s) (programmed p d s) hne x y
      rw [hendRow, if_pos (by_contra fun hw => hsetpx ⟨hw, x, y, rfl⟩)]
    | setwin x1 y1 x2 y2 => exact (txns_setwin _ hne x1 y1 x2 y2).2
    | rstfw => exact (txns_rstfw _ hne).2
    | beginpx | beginrd | rdpx | endrd | cmd | rdb => exact (txns_other _ rfl (Bool.eq_false_iff.mpr hdata)).2
    | pxw | pxrun | dat2 | datf | wrb => exact absurd rfl hdata

end Sys2Proof.Machine
end

section
/-! SUPPORT. The bytes of a request and of a run of requests (20_memory.md R56, R59, R62), and from that the obligations on what
the controller is sent. -/

namespace Sys2Proof.Machine

open Sys2Proof.Safety
open Sys2Proof.Machine.Spelling

/-! ## One request, at any level of CD -/

section
variable {p : Params} {s : State} {i : Instr}

/-- Every request but WRB selects before it writes, so its bytes do not depend on the level CD had. -/
theorem bytesFrom_requestEvents_of_ne_wrb (c : Scan) (hw : c.lines.wr = .high) (hi : ∀ v, i ≠ .wrb v) :
    bytesFrom p c (requestEvents p s i) = requestBytes p s i := by
  cases i with
  | wrb v => exact absurd rfl (hi v)
  | setpx x y =>
    by_cases h : s.win = .defaultLR <;>
      simp [requestEvents, requestBytes, bodyEvents, bytesFrom_append, bytesFrom_cons, Scan.emits, Scan.after, startEvents,
        rangeEvents, lrResetEvents, bytesFrom_commandEvents, bytesFrom_wordEvents, hw, h]
  | pxrun color n =>
    simp [requestEvents, requestBytes, bodyEvents, bytesFrom_append, bytesFrom_cons, Scan.emits, Scan.after,
      bytesFrom_replicate_wordEvents, hw]
  | setwin | rstfw | beginpx | pxw | beginrd | rdpx | endrd | cmd | dat2 | datf | rdb =>
    simp [requestEvents, requestBytes, bodyEvents, bytesFrom_append, bytesFrom_cons, Scan.emits, Scan.after, startEvents,
      rangeEvents, bytesFrom_commandEvents, bytesFrom_wordEvents, bytesFrom_pairEvents, bytesFrom_fastEvents,
      bytesFrom_readEvents, hw]

theorem bytesBetween_of_ne_wrb (hw : s.lines.wr = .high) (hi : ∀ v, i ≠ .wrb v) :
    bytesBetween p s (stateAfter p i s) = requestBytes p s i := by
  rw [bytesBetween, newEvents_stateAfter]
  exact bytesFrom_requestEvents_of_ne_wrb _ hw hi

/-- WRB moves one byte, as a command or as data by the level CD has (R124). -/
theorem length_bytesBetween_wrb (v : Byte) (hw : s.lines.wr = .high) :
    (bytesBetween p s (stateAfter p (.wrb v) s)).length = 1 := by
  rw [bytesBetween, newEvents_stateAfter]
  simp [requestEvents, bodyEvents, bytesFrom_append, bytesFrom_cons, bytesFrom_writeEvents, Scan.emits, Scan.after,
    Scan.ofState, hw]

end

/-- Settles O50: the three requests complete in Write, and none of them is WRB. -/
theorem coordinatesPassUninterpreted : Obligations.CoordinatesPassUninterpreted := by
  intro p s hw hdir
  refine ⟨fun x y => ⟨_, request_next.mpr ⟨hdir, rfl⟩, ?_⟩, fun x1 y1 x2 y2 => ⟨_, request_next.mpr ⟨hdir, rfl⟩, ?_⟩,
    fun opcode => ⟨_, request_next.mpr ⟨hdir, rfl⟩, ?_⟩⟩ <;> rw [bytesBetween_of_ne_wrb hw (by simp)]
  · exact requestBytes_setpx p s x y
  · exact requestBytes_setwin p s x1 y1 x2 y2
  · rfl

/-- `n` pairs are `2 * n` bytes (R56). -/
theorem length_flatten_replicate_pair (hi lo : Byte) (n : Nat) :
    (List.replicate n [BusTxn.wrData hi, .wrData lo]).flatten.length = 2 * n := by
  simp [List.length_flatten, Nat.mul_comm]

/-- Settles O51: WRB moves one byte at either level of CD, and every other request its `requestBytes`. -/
theorem byteTransfersPerRequest : Obligations.ByteTransfersPerRequest := by
  intro p i s t hs h
  obtain ⟨-, rfl⟩ := request_next.mp h
  have hw : s.lines.wr = .high := by rw [hs]; rfl
  by_cases hi : ∃ v, i = .wrb v
  · obtain ⟨v, rfl⟩ := hi
    exact length_bytesBetween_wrb v hw
  rw [bytesBetween_of_ne_wrb hw fun v hv => hi ⟨v, hv⟩]
  cases i with
  | wrb v => exact absurd ⟨v, rfl⟩ hi
  | setpx x y => by_cases hwin : s.win = .defaultLR <;> simp [requestBytes, hwin]
  | pxrun color n => exact length_flatten_replicate_pair _ _ _
  | setwin | rstfw | beginpx | pxw | beginrd | rdpx | endrd | cmd | dat2 | datf | rdb => rfl

/-! ## Runs from the full idle pattern -/

section
variable {p : Params} {i : Instr} {l : List Instr} {s t : State}

/-- A run that goes on after a request moves that request's bytes and then the rest's. -/
theorem bytesBetween_cons_stateAfter (hc : p.cdCmdLevel = .low) (hs : s.lines = Lines.fullIdle)
    (h : requests p l (stateAfter p i s) = .next t) :
    bytesBetween p s t = requestBytes p s i ++ bytesBetween p (stateAfter p i s) t := by
  rw [bytesBetween_cons h, bytesBetween_stateAfter p i s hc hs]

end

/-- Settles O52: SETWIN leaves a belief other than DefaultLR, so the first SETPX sends the reset and leaves DefaultLR, and the
second does not. -/
theorem lowerRightBoundReprogrammedOnce : Obligations.LowerRightBoundReprogrammedOnce := by
  intro p s x1 y1 x2 y2 x y x' y' hc hs hdir
  let s₁ := stateAfter p (.setwin x1 y1 x2 y2) s
  let s₂ := stateAfter p (.setpx x y) s₁
  let s₃ := stateAfter p (.setpx x' y') s₂
  have hs₁ : s₁.lines = Lines.fullIdle := stateAfter_fullIdle p _ s hc hs
  have hs₂ : s₂.lines = Lines.fullIdle := stateAfter_fullIdle p _ s₁ hc hs₁
  have hrun₃ : requests p [.setpx x' y'] s₂ = .next s₃ := requests_cons hdir
  have hrun₂ : requests p [.setpx x y, .setpx x' y'] s₁ = .next s₃ := (requests_cons hdir).trans hrun₃
  refine ⟨s₃, (requests_cons hdir).trans hrun₂, rfl, ?_⟩
  rw [bytesBetween_cons_stateAfter hc hs hrun₂, bytesBetween_cons_stateAfter hc hs₁ hrun₃,
    bytesBetween_stateAfter p _ s₂ hc hs₂, requestBytes_setwin, requestBytes_setpx, requestBytes_setpx,
    if_neg (by simp [s₁, stateAfter, winAfter]), if_pos (show s₂.win = .defaultLR from rfl)]
  simp only [List.append_assoc, List.nil_append]

/-- The pattern allows a SETPX, a BEGINPX, and in an open pixel-write stream a data write (R165). -/
theorem pixelByPixelStep_cases {m : Mode} {i : Instr} (hi : pixelByPixelStep m i = true) :
    (∃ x y, i = .setpx x y) ∨ i = .beginpx ∨ (m = .pixelWrite ∧ isDataWrite i = true) := by
  cases i with
  | setpx x y => exact .inl ⟨x, y, rfl⟩
  | beginpx => exact .inr (.inl rfl)
  | _ =>
    cases m with
    | pixelWrite => exact .inr (.inr ⟨rfl, hi⟩)
    | idle | pixelRead => cases hi

/-- A request of the pattern fits Write, keeps DefaultLR and the pattern's mode, and sends the bytes of the pattern (R165). -/
theorem pixelByPixelStep_stateAfter {p : Params} {i : Instr} {s : State} (hi : pixelByPixelStep s.mode i = true)
    (hw : s.win = .defaultLR) : neededDir i = .write ∧ (stateAfter p i s).dir = s.dir ∧
      (stateAfter p i s).win = .defaultLR ∧ (stateAfter p i s).mode = streamAfter s.mode i ∧
      requestBytes p s i = topLeftBytes p i := by
  obtain ⟨x, y, rfl⟩ | rfl | ⟨hmode, hdata⟩ := pixelByPixelStep_cases hi
  · exact ⟨rfl, rfl, rfl, rfl, by rw [requestBytes_setpx, if_pos hw]; rfl⟩
  · exact ⟨rfl, rfl, hw, rfl, rfl⟩
  · have hwin : winAfter s i = .defaultLR := (winAfter_dataWrite_stream hdata (by simp [hmode])).trans hw
    cases i with
    | pxw | pxrun | dat2 | datf | wrb => exact ⟨rfl, rfl, hwin, rfl, rfl⟩
    | setpx | setwin | rstfw | beginpx | beginrd | rdpx | endrd | cmd | rdb => cases hdata

/-- Settles O54, by induction on the list: each request of the pattern leaves a state the rest can start from. -/
theorem pixelByPixelNeverSendsLowerRight : Obligations.PixelByPixelNeverSendsLowerRight := by
  intro p l s hc
  induction l generalizing s with
  | nil => exact fun _ _ hw _ => ⟨s, rfl, hw, bytesBetween_self p s⟩
  | cons i l ih =>
    intro hs hdir hw hl
    rw [pixelByPixel, Bool.and_eq_true] at hl
    obtain ⟨hneeded, hdir', hw', hmode', hbytes⟩ := pixelByPixelStep_stateAfter (p := p) hl.1 hw
    obtain ⟨t, hrun, hwin, hrest⟩ := ih (stateAfter p i s) (stateAfter_fullIdle p i s hc hs) (hdir'.trans hdir) hw'
      (hmode' ▸ hl.2)
    refine ⟨t, (requests_cons (hdir.trans hneeded.symm)).trans hrun, hwin, ?_⟩
    rw [bytesBetween_cons_stateAfter hc hs hrun, hbytes, hrest, List.flatMap_cons]

/-- Settles O55, by induction on the list: each data write moves data bytes only. -/
theorem streamSendsDataOnly : Obligations.StreamSendsDataOnly := by
  intro p l s t hc
  induction l generalizing s with
  | nil =>
    intro _ _ h
    cases h
    simp
  | cons i l ih =>
    intro hs hl h x hx
    rw [List.all_cons, Bool.and_eq_true] at hl
    obtain ⟨-, hrest⟩ := requests_cons_next.mp h
    rw [bytesBetween_cons_stateAfter hc hs hrest, List.mem_append] at hx
    obtain hx | hx := hx
    · exact requestBytes_data p i s hl.1 x hx
    · exact ih (stateAfter p i s) (stateAfter_fullIdle p i s hc hs) hl.2 hrest x hx

/-- A run of `n` PXW requests from the full idle pattern moves `n` pairs of bytes and leaves, but for the trace, what one PXRUN of
`n` words does. -/
theorem requests_replicate_pxw {p : Params} (hc : p.cdCmdLevel = .low) (color : Word16) (n : Nat) (s : State)
    (hs : s.lines = Lines.fullIdle) (hdir : s.dir = .write) :
    ∃ u, requests p (List.replicate n (.pxw color)) s = .next u ∧
      bytesBetween p s u = (List.replicate n [BusTxn.wrData (hiByte color), .wrData (loByte color)]).flatten ∧
      u = { s with
        dbus := if n = 0 then s.dbus else loByte color
        win := if s.mode = .idle ∧ n ≠ 0 then .unknown else s.win
        trace := u.trace } := by
  induction n generalizing s with
  | zero => exact ⟨s, rfl, bytesBetween_self p s, by simp⟩
  | succ n ih =>
    have hs₁ := stateAfter_fullIdle p (.pxw color) s hc hs
    obtain ⟨u, hrun, hbytes, hu⟩ := ih (stateAfter p (.pxw color) s) hs₁ hdir
    refine ⟨u, (requests_cons hdir).trans hrun, ?_, ?_⟩
    · rw [bytesBetween_cons_stateAfter hc hs hrun, hbytes, List.replicate_succ, List.flatten_cons]
      rfl
    · rw [hu, hs₁, ← hs]
      by_cases hn : n = 0 <;> by_cases hm : s.mode = .idle <;>
        simp [stateAfter, dbusAfter, winAfter, modeAfter, drawn, responseOf, dirAfter, hn, hm]

/-- Settles O56: both complete, and a PXRUN of `n` words and `n` PXW requests change the same fields in the same way. -/
theorem bulkTransferIsTheSimpleLoop : Obligations.BulkTransferIsTheSimpleLoop := by
  intro p color n s hc hs hdir
  obtain ⟨u, hrun, hbytes, hu⟩ := requests_replicate_pxw hc color n.toNat s hs hdir
  refine ⟨stateAfter p (.pxrun color n) s, u, request_next.mpr ⟨hdir, rfl⟩, hrun, ?_, ?_⟩
  · rw [hbytes, bytesBetween_stateAfter p _ s hc hs]
    rfl
  · have hlines := stateAfter_fullIdle p (.pxrun color n) s hc hs
    rw [hu]
    simp only [stateAfter] at hlines ⊢
    rw [hlines, ← hs]
    simp [dbusAfter, winAfter, modeAfter, drawn, responseOf, dirAfter]

end Sys2Proof.Machine
end

section
/-! SUPPORT. What the pieces of a request have in common, whatever the request: they leave chip-select alone, they show named line
patterns only, they drive a byte before they strobe it, and they mean the same in either polarity of CD. And what the
environment's bytes reach. -/

namespace Sys2Proof.Machine

open Sys2Proof.Safety
open Sys2Proof.Machine.Spelling

/-! ## Chip-select (R108) -/

section
variable (p : Params)

/-- The optional pulse delay holds no line event. -/
@[simp] theorem line_notMem_pulseEvents (n : LineName) (v : Level) : .line n v ∉ pulseEvents p := by
  unfold pulseEvents
  split <;> simp

theorem cs_notMem_piece (a : Piece) (v : Level) : .line .cs v ∉ a.events p := by
  cases a <;> simp [Piece.events, commandEvents, writeEvents, strobeEvents, readEvents]

theorem cs_notMem_bodyEvents (s : State) (i : Instr) (v : Level) : .line .cs v ∉ bodyEvents p s i := by
  rw [bodyEvents_eq_flatMap, List.mem_flatMap]
  rintro ⟨a, -, ha⟩
  exact cs_notMem_piece p a v ha

end

/-- Settles O44: the two chip-select events stand around the body, and no piece of the body holds one. -/
theorem everyRequestIsOneBurst : Obligations.EveryRequestIsOneBurst := by
  intro p i s t h
  obtain ⟨-, rfl⟩ := request_next.mp h
  exact ⟨bodyEvents p s i, newEvents_stateAfter p i s, cs_notMem_bodyEvents p s i⟩

/-! ## The line patterns (R102) -/

/-- A property of the lines holds at every point of a trace, its ends included. -/
def LinesAlong (P : Lines → Prop) (c : Scan) : List Event → Prop
  | [] => P c.lines
  | e :: es => P c.lines ∧ LinesAlong P (c.after e) es

section
variable {P : Lines → Prop} {c : Scan} {es fs : List Event}

theorem linesAlong_append : LinesAlong P c (es ++ fs) ↔ LinesAlong P c es ∧ LinesAlong P (c.afterAll es) fs := by
  induction es generalizing c with
  | nil =>
    refine ⟨fun h => ⟨?_, h⟩, fun h => h.2⟩
    cases fs with
    | nil => exact h
    | cons e fs => exact h.1
  | cons e es ih => simp only [List.cons_append, LinesAlong, ih, Scan.afterAll_cons, and_assoc]

theorem linesAlong_take (h : LinesAlong P c es) (k : Nat) : P (c.afterAll (es.take k)).lines := by
  induction es generalizing c k with
  | nil => simpa [LinesAlong] using h
  | cons e es ih =>
    cases k with
    | zero => exact h.1
    | succ k => exact ih h.2 k

end

/-- The named patterns of R102. -/
def namedPatterns : List Lines :=
  [⟨.high, .high, .high, .high, .high⟩, ⟨.low, .high, .high, .high, .high⟩, ⟨.low, .low, .high, .high, .high⟩,
    ⟨.low, .low, .low, .high, .high⟩, ⟨.low, .high, .low, .high, .high⟩, ⟨.low, .high, .high, .low, .high⟩]

/-- Burst idle: CS low and all other lines high (R102). -/
def Lines.burstIdle : Lines := ⟨.low, .high, .high, .high, .high⟩

section
variable {c : Scan} (hc : c.lines = Lines.burstIdle)
include hc

/-- At the machine's parameters a piece shows named patterns only, and leads from burst idle back to it. -/
theorem linesAlong_piece (a : Piece) : LinesAlong (· ∈ namedPatterns) c (a.events Config.params) ∧
    (c.afterAll (a.events Config.params)).lines = Lines.burstIdle := by
  obtain ⟨l, d⟩ := c
  cases hc
  cases a <;>
    simp [Piece.events, commandEvents, writeEvents, strobeEvents, pulseEvents, readEvents, LinesAlong, Scan.after,
      Lines.burstIdle, namedPatterns, Config.params, Params.dataLevel, Level.other]

theorem linesAlong_row (as : List Piece) :
    LinesAlong (· ∈ namedPatterns) c (as.flatMap (Piece.events Config.params)) ∧
      (c.afterAll (as.flatMap (Piece.events Config.params))).lines = Lines.burstIdle := by
  induction as generalizing c with
  | nil => exact ⟨by simp [LinesAlong, hc, Lines.burstIdle, namedPatterns], hc⟩
  | cons a as ih =>
    obtain ⟨hpiece, hidle⟩ := linesAlong_piece hc a
    obtain ⟨hrow, hidle'⟩ := ih hidle
    rw [List.flatMap_cons, linesAlong_append, Scan.afterAll_append]
    exact ⟨⟨hpiece, hrow⟩, hidle'⟩

/-- Releasing chip-select leads from burst idle to full idle. -/
theorem linesAlong_release : LinesAlong (· ∈ namedPatterns) c [.line .cs .high] := by
  simp [LinesAlong, Scan.after, hc, Lines.burstIdle, namedPatterns]

end

/-- Settles O45: chip-select leads from full idle to burst idle and back, and the pieces between show named patterns only. -/
theorem onlyNamedPatternsAppear : Obligations.OnlyNamedPatternsAppear := by
  intro i s t k hs h
  obtain ⟨-, rfl⟩ := exec_next.mp h
  rw [newEvents_stateAfter]
  refine linesAlong_take (P := (· ∈ namedPatterns)) ?_ k
  refine (⟨?start, ?body⟩ : LinesAlong (· ∈ namedPatterns) (Scan.ofState s) (requestEvents Config.params s i))
  case start => simp [Scan.ofState, hs, Lines.fullIdle, namedPatterns]
  case body =>
    have hassert : ((Scan.ofState s).after (.line .cs .low)).lines = Lines.burstIdle := by
      simp [Scan.ofState, Scan.after, hs, Lines.fullIdle, Lines.burstIdle]
    obtain ⟨hrow, hidle⟩ := linesAlong_row hassert (bodyPieces Config.params s i)
    rw [bodyEvents_eq_flatMap, linesAlong_append]
    exact ⟨hrow, linesAlong_release hidle⟩

/-! ## The environment's bytes (R58, R181) -/

/-- An event without the byte the environment answered. -/
def blankSample : Event → Event
  | .sample _ => .sample 0
  | e => e

/-- The events of a request depend on the environment's bytes in the samples alone. -/
theorem map_blankSample_bodyEvents (p : Params) {s s' : State} (hw : s'.win = s.win) (i : Instr) :
    (bodyEvents p s' i).map blankSample = (bodyEvents p s i).map blankSample := by
  cases i with
  | setpx x y => simp only [bodyEvents, hw]
  | beginrd | rdpx | rdb => simp [bodyEvents, readEvents, blankSample]
  | setwin | rstfw | beginpx | pxw | pxrun | endrd | cmd | dat2 | datf | wrb => rfl

/-- Whether a request answers does not depend on the environment's bytes. -/
theorem length_responseOf (s s' : State) (i : Instr) : (responseOf s' i).length = (responseOf s i).length := by
  cases i <;> rfl

/-- Settles O47: the request completes again, and every field of `stateAfter` but the samples of the trace, the responses and the
environment's bytes is written without them. -/
theorem sampledBytesAreNotInterpreted : Obligations.SampledBytesAreNotInterpreted := by
  intro p i s t answers draws h
  obtain ⟨hdir, rfl⟩ := request_next.mp h
  refine ⟨_, request_next.mpr ⟨hdir, rfl⟩, rfl, rfl, rfl, rfl, by cases i <;> rfl, rfl, ?responses, ?trace⟩
  case responses => simp [stateAfter, length_responseOf s]
  case trace =>
    intro blank
    have hblank : blank = blankSample := by
      funext e
      cases e <;> rfl
    have hbody := map_blankSample_bodyEvents p (s := s) (s' := { s with answers := answers, draws := draws }) rfl i
    rw [hblank]
    simp only [stateAfter, requestEvents, List.map_append, List.map_cons, hbody]

/-! ## The transactions of a piece -/

section
variable (p : Params)

/-- The transactions of one write strobe: the byte, when chip-select is low and the strobe was inactive, and the optional delay. -/
theorem busFrom_strobeEvents (c : Scan) : busFrom p c (strobeEvents p) =
    (if c.lines.wr = .high ∧ c.lines.cs = .low then [c.strobed p] else []) ++
      if 0 < p.tWrPulse then [.wait p.tWrPulse] else [] := by
  unfold strobeEvents pulseEvents
  split_ifs <;> simp_all [busFrom, Scan.emits]

/-! ## The byte left on the data bus (R25) -/

section
variable {c c' : Scan} (hc : c.lines = c'.lines)
include hc

/-- The lines a trace leaves do not depend on the byte on the data bus. -/
theorem afterAll_lines_congr (es : List Event) : (c.afterAll es).lines = (c'.afterAll es).lines := by
  induction es generalizing c c' with
  | nil => exact hc
  | cons e es ih => cases e <;> exact ih (by simp [Scan.after, hc])

/-- A piece drives a byte before it strobes it. -/
theorem busFrom_piece_congr (a : Piece) : busFrom p c (a.events p) = busFrom p c' (a.events p) := by
  cases a <;>
    simp [Piece.events, commandEvents, writeEvents, readEvents, busFrom, busFrom_append, busFrom_strobeEvents, Scan.emits,
      Scan.after, hc]

theorem busFrom_row_congr (as : List Piece) :
    busFrom p c (as.flatMap (Piece.events p)) = busFrom p c' (as.flatMap (Piece.events p)) := by
  induction as generalizing c c' with
  | nil => rfl
  | cons a as ih =>
    rw [List.flatMap_cons, busFrom_append, busFrom_append, busFrom_piece_congr p hc a, ih (afterAll_lines_congr hc _)]

end

/-- The chip-select events of a request emit no transaction. -/
theorem busFrom_requestEvents (c : Scan) (s : State) (i : Instr) :
    busFrom p c (requestEvents p s i) = busFrom p (c.after (.line .cs .low)) ((bodyPieces p s i).flatMap (Piece.events p)) := by
  simp [requestEvents, bodyEvents_eq_flatMap, busFrom, busFrom_append, Scan.emits]

end

/-- Settles O48: every piece of a request drives its bytes before it strobes them. -/
theorem dataBusNeverUsedBeforeDriven : Obligations.DataBusNeverUsedBeforeDriven := by
  intro p i s t d d' h
  obtain ⟨-, rfl⟩ := request_next.mp h
  rw [newEvents_stateAfter, busFrom_requestEvents, busFrom_requestEvents]
  refine busFrom_row_congr p ?_ (bodyPieces p s i)
  rfl

/-! ## The polarity of CD (D5) -/

/-- The parameters with the other polarity of CD. -/
def invertedParams (p : Params) : Params := { p with cdCmdLevel := p.dataLevel }

/-- The scan with CD at the data level of the other polarity. -/
def Scan.inverted (p : Params) (c : Scan) : Scan :=
  { c with lines := { c.lines with cd := (invertedParams p).dataLevel } }

section
variable (p : Params)

/-- The write strobe does not depend on the polarity. -/
@[simp] theorem strobeEvents_inverted : strobeEvents (invertedParams p) = strobeEvents p := rfl

theorem busFrom_strobeEvents_inverted (c : Scan) : busFrom (invertedParams p) c (strobeEvents p) =
    (if c.lines.wr = .high ∧ c.lines.cs = .low then [c.strobed (invertedParams p)] else []) ++
      if 0 < p.tWrPulse then [.wait p.tWrPulse] else [] := busFrom_strobeEvents (invertedParams p) c

@[simp] theorem tRdSettle_inverted : (invertedParams p).tRdSettle = p.tRdSettle := rfl

/-- The pieces of a request depend on the polarity and the lines in nothing. -/
theorem bodyPieces_inverted (s : State) (ls : Lines) (i : Instr) :
    bodyPieces (invertedParams p) { s with lines := ls } i = bodyPieces p s i := by
  obtain ⟨hfirst, hanswers, hdraws⟩ := draw_congr s { s with lines := ls } rfl rfl
  obtain ⟨hsecond, -, -⟩ := draw_congr (draw s).2 (draw { s with lines := ls }).2 hanswers hdraws
  cases i with
  | beginrd => simp [bodyPieces, hfirst, invertedParams]
  | rdb => simp only [bodyPieces, hfirst]
  | rdpx => simp only [bodyPieces, hfirst, hsecond]
  | setpx | setwin | rstfw | beginpx | pxw | pxrun | endrd | cmd | dat2 | datf | wrb => rfl

variable {p} {c : Scan} (hc : c.lines.cd = p.dataLevel)
include hc

/-- From CD at the data level a piece sends the same in both polarities, and leaves CD at the data level. -/
theorem busFrom_piece_inverted (a : Piece) :
    busFrom (invertedParams p) (c.inverted p) (a.events (invertedParams p)) = busFrom p c (a.events p) ∧
      (c.inverted p).afterAll (a.events (invertedParams p)) = (c.afterAll (a.events p)).inverted p ∧
      (c.afterAll (a.events p)).lines.cd = p.dataLevel := by
  cases a <;>
    simp [Piece.events, commandEvents, writeEvents, readEvents, busFrom, busFrom_append, busFrom_strobeEvents,
      busFrom_strobeEvents_inverted, Scan.emits, Scan.after, Scan.afterAll_append, Scan.inverted, strobed_command, strobed_data, hc]

theorem busFrom_row_inverted (as : List Piece) :
    busFrom (invertedParams p) (c.inverted p) (as.flatMap (Piece.events (invertedParams p))) =
      busFrom p c (as.flatMap (Piece.events p)) := by
  induction as generalizing c with
  | nil => rfl
  | cons a as ih =>
    obtain ⟨hbus, hscan, hcd⟩ := busFrom_piece_inverted hc a
    rw [List.flatMap_cons, List.flatMap_cons, busFrom_append, busFrom_append, hbus, hscan, ih hcd]

end

/-- Settles O49: the request with the other polarity is made of the same pieces. -/
theorem busDoesNotDependOnSelectPolarity : Obligations.BusDoesNotDependOnSelectPolarity := by
  intro p i s t hcd h q r
  obtain ⟨hdir, rfl⟩ := request_next.mp h
  refine ⟨stateAfter q i r, request_next.mpr ⟨hdir, rfl⟩, ?_⟩
  have hpieces : bodyPieces q r i = bodyPieces p s i := bodyPieces_inverted p s _ i
  have hcd' : ((Scan.ofState s).after (.line .cs .low)).lines.cd = p.dataLevel := hcd
  rw [newEvents_stateAfter, newEvents_stateAfter, busFrom_requestEvents, busFrom_requestEvents, hpieces]
  exact busFrom_row_inverted hcd' (bodyPieces p s i)

end Sys2Proof.Machine
end
